-- ==== Sys2Proof/Word.lean ====
section
/-! DEFINITION. The fixed-width values of the engine (00_scope.md R6, R8, R9): every value is an unsigned
bit vector of a stated width, and its type carries the masking. -/

namespace Sys2Proof

/-- A field element, a table index and a table entry: `NIB_BITS` = 4 (R6). -/
abbrev Nibble := BitVec 4

/-- A key half and a matrix column: `BYTE_BITS` = 8 (R6). -/
abbrev Byte := BitVec 8

/-- The cipher's State, a plaintext, a ciphertext, the master key and a round key:
`BLOCK_BITS` = `KEY_BITS` = 16 (R6). -/
abbrev Word := BitVec 16

/-- A request word (30_encoding.md R60). -/
abbrev Request := BitVec 34

/-- A response word (30_encoding.md R64). -/
abbrev Response := BitVec 32

end Sys2Proof
end

