-- ==== Sys2Proof/Syntax.lean ====
section
/-! DEFINITION. The four operations (30_encoding.md R61), one constructor per row of spec/opcode_table.json. A
constructor carries every field of the row, the ignored ones too, so that no bit of a request word is lost (log 11). -/

namespace Sys2Proof

/-- A decoded request. -/
inductive Instr where
  /-- KEYEXP: `x` is ignored, `k` is the master key (42_key_schedule.md R116). -/
  | keyexp (x k : Word)
  /-- ENC: `x` is the plaintext, `k` the master key (44_cipher_pipeline.md R151). -/
  | enc (x k : Word)
  /-- DEC: `x` is the ciphertext, `k` the master key (44_cipher_pipeline.md R153). -/
  | dec (x k : Word)
  /-- GFMUL: `a` and `b` are the factors, `u` = `req.x[15:4]` and `v` = `req.k[15:4]` are ignored
  (40_gf_arithmetic.md R86). -/
  | gfmul (u : BitVec 12) (a : Nibble) (v : BitVec 12) (b : Nibble)
  deriving DecidableEq, Repr

end Sys2Proof
end

