-- ==== Sys2Proof/Decode.lean ====
section
/-! DEFINITION. Request words (30_encoding.md R60 to R63): the fields, the total decoder, the encoder, and the boundary
in front of the engine that turns a number into a request word or refuses it by name. -/

namespace Sys2Proof

/-- `req.op`, bits 33:32 (R60). -/
def reqOp (r : Request) : BitVec 2 := r.extractLsb' 32 2

/-- `req.x`, bits 31:16 (R60). -/
def reqX (r : Request) : Word := r.extractLsb' 16 16

/-- `req.k`, bits 15:0 (R60). -/
def reqK (r : Request) : Word := r.extractLsb' 0 16

/-- The request `{op, x, k}` (R60). -/
def packRequest (op : BitVec 2) (x k : Word) : Request := op ++ x ++ k

/-- The low nibble of an operand field, where GFMUL takes its factors (R62). -/
def operandNibble (w : Word) : Nibble := w.extractLsb' 0 4

/-- The upper 12 bits of an operand field, which GFMUL ignores (R63). -/
def operandRest (w : Word) : BitVec 12 := w.extractLsb' 4 12

/-- The decoder: `op` selects the operation, R62 assembles its operands; total on every request word (R65). -/
def decode (r : Request) : Instr :=
  match (reqOp r).getLsbD 1, (reqOp r).getLsbD 0 with
  | false, false => .keyexp (reqX r) (reqK r)
  | false, true => .enc (reqX r) (reqK r)
  | true, false => .dec (reqX r) (reqK r)
  | true, true =>
    .gfmul (operandRest (reqX r)) (operandNibble (reqX r)) (operandRest (reqK r)) (operandNibble (reqK r))

/-- Why the boundary in front of the engine refuses a number. -/
inductive BoundaryRefusal where
  /-- The number needs more than the 34 bits of a request word: the source's `InvalidInputLength`, a condition "at the
  boundary (outside the core)" (30_encoding.md R66, 60_exceptions.md R176). Raised by `boundaryWord`; safe (log 10). -/
  | invalidInputLength
  deriving DecidableEq, Repr

/-- The boundary (R66): a number that fits the 34 bits of a request word is that word, any other is refused. -/
def boundaryWord (w : Nat) : Except BoundaryRefusal Request :=
  if w < 2 ^ 34 then .ok (BitVec.ofNat 34 w) else .error .invalidInputLength

/-- What the decoder reads from a number whose bits are a request word. The interface carries the word whole
(20_memory.md R47), so there are no bytes to order. A number of more than 34 bits is no request word and is refused at
the boundary, however many bits the table's row is padded to. -/
def decodeTableWord (_nbits w : Nat) : Option Instr :=
  match boundaryWord w with
  | .ok r => some (decode r)
  | .error _ => none

/-- The operation code (R61). -/
def Instr.opcode : Instr → BitVec 2
  | .keyexp _ _ => 0b00#2
  | .enc _ _ => 0b01#2
  | .dec _ _ => 0b10#2
  | .gfmul _ _ _ _ => 0b11#2

/-- The `x` field of an operation's request word (R62, R63). -/
def Instr.fieldX : Instr → Word
  | .keyexp x _ => x
  | .enc x _ => x
  | .dec x _ => x
  | .gfmul u a _ _ => u ++ a

/-- The `k` field of an operation's request word (R62, R63). -/
def Instr.fieldK : Instr → Word
  | .keyexp _ k => k
  | .enc _ k => k
  | .dec _ k => k
  | .gfmul _ _ v b => v ++ b

/-- The request word of an operation (R60, R61, R62). -/
def encode (i : Instr) : Request := packRequest i.opcode i.fieldX i.fieldK

end Sys2Proof
end

