-- ==== Sys2Proof/Machine/Operands.lean ====
section
/-! DEFINITION. Bit, nibble and half-word order (20_memory.md R43 to R46, 00_scope.md R10), the one place where a
16-bit or 8-bit value is cut or assembled, and the response word (30_encoding.md R64). -/

namespace Sys2Proof.Machine

/-- `N0(s) = s[15:12]`, row 0 of column 0 (R43). -/
def nib0 (s : Word) : Nibble := s.extractLsb' 12 4

/-- `N1(s) = s[11:8]`, row 1 of column 0 (R43). -/
def nib1 (s : Word) : Nibble := s.extractLsb' 8 4

/-- `N2(s) = s[7:4]`, row 0 of column 1 (R43). -/
def nib2 (s : Word) : Nibble := s.extractLsb' 4 4

/-- `N3(s) = s[3:0]`, row 1 of column 1 (R43). -/
def nib3 (s : Word) : Nibble := s.extractLsb' 0 4

/-- `{n0, n1, n2, n3}`, `n0` the most significant (R43). -/
def packNibbles (n0 n1 n2 n3 : Nibble) : Word := n0 ++ n1 ++ n2 ++ n3

/-- The upper byte of a word: column 0 of a State (R43), `w0` of a key (R45), the even-numbered half of a round
key (R46). -/
def upperByte (s : Word) : Byte := s.extractLsb' 8 8

/-- The lower byte of a word: column 1 of a State (R43), `w1` of a key (R45), the odd-numbered half of a round
key (R46). -/
def lowerByte (s : Word) : Byte := s.extractLsb' 0 8

/-- `{upper, lower}` as a word (R46). -/
def packBytes (upper lower : Byte) : Word := upper ++ lower

/-- `HI(b) = b[7:4]`: the row-0 entry of a column (R44). -/
def hiNibble (b : Byte) : Nibble := b.extractLsb' 4 4

/-- `LO(b) = b[3:0]`: the row-1 entry of a column (R44). -/
def loNibble (b : Byte) : Nibble := b.extractLsb' 0 4

/-- `{hi, lo}` as a byte (R44). -/
def packByte (hi lo : Nibble) : Byte := hi ++ lo

/-- `zext_16` of a nibble (00_scope.md R8). -/
def zextNibble (n : Nibble) : Word := n.setWidth 16

/-- The response word `{hi[15:0], lo[15:0]}` (30_encoding.md R64). -/
def packResponse (hi lo : Word) : Response := hi ++ lo

/-- `rsp.hi`, bits 31:16 (30_encoding.md R64). -/
def rspHi (r : Response) : Word := r.extractLsb' 16 16

/-- `rsp.lo`, bits 15:0 (30_encoding.md R64). -/
def rspLo (r : Response) : Word := r.extractLsb' 0 16

end Sys2Proof.Machine
end

