-- ==== Sys2Proof/Config.lean ====
section
/-! DEFINITION. What the source names without giving a value (00_scope.md R7): the two substitution tables, the two
mix matrices, and the latency. The default values stand in Machine/Tables.lean, the constraints in WellFormed.lean. -/

namespace Sys2Proof

/-- A substitution table: 16 entries of 4 bits, indexed by a nibble (20_memory.md R41). -/
abbrev SubTable := Vector Nibble 16

/-- A 2x2 matrix over GF(2^4), first index the row (20_memory.md R41, 43_round_transforms.md R130). -/
structure MixMatrix where
  m00 : Nibble
  m01 : Nibble
  m10 : Nibble
  m11 : Nibble
  deriving DecidableEq, Repr

/-- The four constant tables, configuration parameters fixed for a whole run (00_scope.md R7,
70_reset_and_hazards.md R196). Their constraints are `Config.WellFormed`. -/
structure Config where
  sbox : SubTable
  invSbox : SubTable
  mix : MixMatrix
  invMix : MixMatrix
  deriving DecidableEq, Repr

/-- `LATENCY` (00_scope.md R7): a natural number the spec leaves OPEN (92_eei_decisions.md D7). No rule depends on
it (70_reset_and_hazards.md R203), so nothing in the model reads it. Log 8. -/
opaque Config.latency : Nat

end Sys2Proof
end

