-- ==== Sys2Proof/Machine/Tables.lean ====
section
/-! DEFINITION. The engine's constants (10_state.md R24): the three the source fixes, and the default values the spec
supplies for the four it does not print (log 2). -/

namespace Sys2Proof.Machine

/-- `POLY`: the reduction constant, the coefficient pattern of x^4+x+1 (40_gf_arithmetic.md R80). -/
def poly : BitVec 5 := 0b10011#5

/-- `RCON1`: the round constant of the round-1 key material (42_key_schedule.md R113). -/
def rcon1 : Byte := 0x80#8

/-- `RCON2`: the round constant of the round-2 key material (42_key_schedule.md R114). -/
def rcon2 : Byte := 0x30#8

/-- The default `SBOX` (41_substitution.md R97, from general knowledge, G1). -/
def defaultSbox : SubTable :=
  #v[0x9, 0x4, 0xA, 0xB, 0xD, 0x1, 0x8, 0x5, 0x6, 0x2, 0x0, 0x3, 0xC, 0xE, 0xF, 0x7]

/-- The default `INV_SBOX` (41_substitution.md R98, from general knowledge, G1). -/
def defaultInvSbox : SubTable :=
  #v[0xA, 0x5, 0x9, 0xB, 0x1, 0x7, 0x8, 0xF, 0x6, 0x0, 0x2, 0x3, 0xC, 0x4, 0xD, 0xE]

/-- The default `MIX` (43_round_transforms.md R133, from general knowledge, G2). -/
def defaultMix : MixMatrix := { m00 := 1, m01 := 4, m10 := 4, m11 := 1 }

/-- The default `INV_MIX` (43_round_transforms.md R134, from general knowledge, G2). -/
def defaultInvMix : MixMatrix := { m00 := 9, m01 := 2, m10 := 2, m11 := 9 }

/-- The configuration with every default (00_scope.md R7). -/
def defaultConfig : Config :=
  { sbox := defaultSbox, invSbox := defaultInvSbox, mix := defaultMix, invMix := defaultInvMix }

/-- `TabRead(T, n)`: the entry of a substitution table at a nibble, always in range (20_memory.md R42). -/
def tabRead (t : SubTable) (n : Nibble) : Nibble := t[n.toNat]'n.isLt

/-- The entry at (row, column) of a table drawn as a 4x4 square, `T[4·r + c]` (41_substitution.md R102). A reading aid;
no other definition uses it. -/
def squareEntry (t : SubTable) (r c : BitVec 2) : Nibble := tabRead t (r ++ c)

end Sys2Proof.Machine
end

