-- ==== Sys2Proof/Machine/Substitution.lean ====
section
/-! DEFINITION. The substitution functions and their table selector (41_substitution.md R95 to R101). -/

namespace Sys2Proof.Machine

/-- The two-valued table selector (10_state.md R29). -/
inductive Selector where
  | forward
  | inverse
  deriving DecidableEq, Repr

/-- The selector as one bit, where it is carried as one: `Forward` = 0, `Inverse` = 1 (10_state.md R29,
30_encoding.md R67). -/
def selectorBit : Selector → BitVec 1
  | .forward => 0
  | .inverse => 1

/-- The table a selector selects (10_state.md R29). -/
def selectTable (cfg : Config) : Selector → SubTable
  | .forward => cfg.sbox
  | .inverse => cfg.invSbox

/-- `sub_nib(sel, n)` (R99). -/
def subNib (cfg : Config) (sel : Selector) (n : Nibble) : Nibble := tabRead (selectTable cfg sel) n

/-- `sub_byte(sel, b)`, each nibble in its place (R100). -/
def subByte (cfg : Config) (sel : Selector) (b : Byte) : Byte :=
  packByte (subNib cfg sel (hiNibble b)) (subNib cfg sel (loNibble b))

/-- `sub_state(sel, s)`, four independent lanes (R101). -/
def subState (cfg : Config) (sel : Selector) (s : Word) : Word :=
  packNibbles (subNib cfg sel (nib0 s)) (subNib cfg sel (nib1 s)) (subNib cfg sel (nib2 s)) (subNib cfg sel (nib3 s))

end Sys2Proof.Machine
end

