-- ==== Sys2Proof/Machine/KeySchedule.lean ====
section
/-! DEFINITION. The key schedule (42_key_schedule.md R110 to R115). -/

namespace Sys2Proof.Machine

/-- The key schedule's named values (10_state.md R22), the master key among them. -/
structure KeySchedule where
  key : Word
  w0 : Byte
  w1 : Byte
  w2 : Byte
  w3 : Byte
  w4 : Byte
  w5 : Byte
  rk1 : Word
  rk2 : Word
  deriving DecidableEq, Repr

/-- `rot_nib(b)`: the nibbles of a byte swapped (R111). -/
def rotNib (b : Byte) : Byte := packByte (loNibble b) (hiNibble b)

/-- The even-numbered word of one step: the word two before, the round constant, and the word just before it rotated
and then substituted by the forward table (R113, R114). -/
def nextKeyWord (cfg : Config) (rcon twoBefore oneBefore : Byte) : Byte :=
  twoBefore ^^^ rcon ^^^ subByte cfg .forward (rotNib oneBefore)

/-- Every value of the expansion, in the order R112 to R115 assign them. Step 3 rotates `w3`, not `w1` again (R114). -/
def expandKey (cfg : Config) (key : Word) : KeySchedule :=
  let w0 := upperByte key
  let w1 := lowerByte key
  let w2 := nextKeyWord cfg rcon1 w0 w1
  let w3 := w2 ^^^ w1
  let w4 := nextKeyWord cfg rcon2 w2 w3
  let w5 := w4 ^^^ w3
  { key := key, w0 := w0, w1 := w1, w2 := w2, w3 := w3, w4 := w4, w5 := w5,
    rk1 := packBytes w2 w3, rk2 := packBytes w4 w5 }

/-- `key_expansion(key)`: the pair `(rk1, rk2)` (R115). -/
def keyExpansion (cfg : Config) (key : Word) : Word × Word := ((expandKey cfg key).rk1, (expandKey cfg key).rk2)

end Sys2Proof.Machine
end

