-- ==== Sys2Proof/Machine/Field.lean ====
section
/-! DEFINITION. The GF(2^4) multiplier (40_gf_arithmetic.md R80 to R82): the source's shift-and-add loop over its own
values `a`, `b`, `acc`, `i`. -/

namespace Sys2Proof.Machine

/-- The multiplier's values at the top of an iteration (10_state.md R22): `a` and `b` 4 bits, `acc` 4 bits, the
iteration count `i` 2 bits. -/
structure Multiplier where
  a : Nibble
  b : Nibble
  acc : Nibble
  i : BitVec 2
  deriving DecidableEq, Repr

/-- The multiplier before its first iteration (R81). -/
def startMul (a b : Nibble) : Multiplier := { a := a, b := b, acc := 0, i := 0 }

/-- Multiplication by x: the shift kept to 5 bits, then the fold by `POLY` when bit 4 is set (R81, R82). -/
def shiftReduce (a : Nibble) : Nibble :=
  let t : BitVec 5 := a ++ 0#1
  let t := if t.getLsbD 4 then t ^^^ poly else t
  t.extractLsb' 0 4

/-- The body of the loop (R81). -/
def iterateMul (m : Multiplier) : Multiplier :=
  { a := shiftReduce m.a
    b := 0#1 ++ m.b.extractLsb' 1 3
    acc := if m.b.getLsbD 0 then m.acc ^^^ m.a else m.acc
    i := m.i + 1 }

/-- `n` iterations (R81). -/
def runMul : Nat → Multiplier → Multiplier
  | 0, m => m
  | n + 1, m => runMul n (iterateMul m)

/-- `GF_ITER`: the loop's fixed trip count (00_scope.md R6). -/
def gfIter : Nat := 4

/-- `gf_mul(a, b)` (R81): exactly four iterations, whatever the operands. -/
def gfMul (a b : Nibble) : Nibble := (runMul gfIter (startMul a b)).acc

end Sys2Proof.Machine
end

