-- ==== Sys2Proof/Machine/RoundTransforms.lean ====
section
/-! DEFINITION. The round transforms on the 16-bit State (43_round_transforms.md R125 to R132). -/

namespace Sys2Proof.Machine

/-- `key_mix(s, rk)` (R126). -/
def keyMix (s rk : Word) : Word := s ^^^ rk

/-- `byte_sub(s)`: the forward table on each nibble (R127). -/
def byteSub (cfg : Config) (s : Word) : Word := subState cfg .forward s

/-- `inv_byte_sub(s)`: the inverse table on each nibble (R128). -/
def invByteSub (cfg : Config) (s : Word) : Word := subState cfg .inverse s

/-- `shift_rows(s)`: the second and fourth nibble swapped (R129). -/
def shiftRows (s : Word) : Word := packNibbles (nib0 s) (nib3 s) (nib2 s) (nib1 s)

/-- `mat_col(M, c)`: the matrix times the column, products by `gf_mul`, sums by XOR (R130). -/
def matCol (m : MixMatrix) (c : Byte) : Byte :=
  packByte (gfMul m.m00 (hiNibble c) ^^^ gfMul m.m01 (loNibble c))
    (gfMul m.m10 (hiNibble c) ^^^ gfMul m.m11 (loNibble c))

/-- `mix_col_byte(c)` (R131). -/
def mixColByte (cfg : Config) (c : Byte) : Byte := matCol cfg.mix c

/-- `inv_mix_col_byte(c)` (R131). -/
def invMixColByte (cfg : Config) (c : Byte) : Byte := matCol cfg.invMix c

/-- `mix_col(s)`, two independent column lanes (R131). -/
def mixCol (cfg : Config) (s : Word) : Word :=
  packBytes (mixColByte cfg (upperByte s)) (mixColByte cfg (lowerByte s))

/-- `inv_mix_col(s)`, two independent column lanes (R131). -/
def invMixCol (cfg : Config) (s : Word) : Word :=
  packBytes (invMixColByte cfg (upperByte s)) (invMixColByte cfg (lowerByte s))

/-- The product of two matrices over the field (R132). -/
def matMul (m n : MixMatrix) : MixMatrix :=
  { m00 := gfMul m.m00 n.m00 ^^^ gfMul m.m01 n.m10
    m01 := gfMul m.m00 n.m01 ^^^ gfMul m.m01 n.m11
    m10 := gfMul m.m10 n.m00 ^^^ gfMul m.m11 n.m10
    m11 := gfMul m.m10 n.m01 ^^^ gfMul m.m11 n.m11 }

/-- The identity matrix `[[1, 0], [0, 1]]` (R132). -/
def identityMatrix : MixMatrix := { m00 := 1, m01 := 0, m10 := 0, m11 := 1 }

end Sys2Proof.Machine
end

