-- ==== Sys2Proof/Machine/Pipeline.lean ====
section
/-! DEFINITION. The cipher pipeline as functions (44_cipher_pipeline.md R150, R152) and, stage by stage, as a machine on
the transaction context (R154, R155; 10_state.md R22). -/

namespace Sys2Proof.Machine

/-- `encrypt(plaintext, key)`: initial KeyMix, one full round, one final round without ColumnMix (R150). -/
def encrypt (cfg : Config) (plaintext key : Word) : Word :=
  let rk := keyExpansion cfg key
  let s := keyMix plaintext key
  let s := byteSub cfg s
  let s := shiftRows s
  let s := mixCol cfg s
  let s := keyMix s rk.1
  let s := byteSub cfg s
  let s := shiftRows s
  keyMix s rk.2

/-- `decrypt(ciphertext, key)`: the inverse transforms in the reverse order, with the same key schedule (R152). -/
def decrypt (cfg : Config) (ciphertext key : Word) : Word :=
  let rk := keyExpansion cfg key
  let s := keyMix ciphertext rk.2
  let s := shiftRows s
  let s := invByteSub cfg s
  let s := keyMix s rk.1
  let s := invMixCol cfg s
  let s := shiftRows s
  let s := invByteSub cfg s
  keyMix s key

/-- The stages of ENC (R154). -/
inductive EncStage where
  | eInitial
  | eRound1
  | eRound2
  | eDone
  deriving DecidableEq, Repr

/-- The stages of DEC (R155). -/
inductive DecStage where
  | dInitial
  | dInvRound2
  | dInvRound1
  | dFinal
  | dDone
  deriving DecidableEq, Repr

/-- A transaction in flight: the operation is the constructor, the arguments are the values of its context that are
written (10_state.md R22, R23). -/
inductive Transaction where
  /-- KEYEXP, its round keys derived (log 9). -/
  | keyexp (ks : KeySchedule)
  /-- ENC before the action of `stage`, its State `s` (R154). -/
  | enc (stage : EncStage) (ks : KeySchedule) (s : Word)
  /-- DEC before the action of `stage`, its State `s` (R155). -/
  | dec (stage : DecStage) (ks : KeySchedule) (s : Word)
  /-- GFMUL at the top of iteration `m.i` (40_gf_arithmetic.md R81; log 9). -/
  | gfmul (m : Multiplier)
  /-- GFMUL after its last iteration (40_gf_arithmetic.md R81; log 9). -/
  | gfmulDone (acc : Nibble)
  deriving DecidableEq, Repr

/-- The row "(request accepted)" of R154 and R155: the context of a newly accepted request, both round keys derived. -/
def beginTransaction (cfg : Config) : Instr → Transaction
  | .keyexp _ k => .keyexp (expandKey cfg k)
  | .enc x k => .enc .eInitial (expandKey cfg k) x
  | .dec x k => .dec .dInitial (expandKey cfg k) x
  | .gfmul _ a _ b => .gfmul (startMul a b)

/-- What one action of the stage machine does to a transaction. -/
inductive Progress where
  /-- It goes on, with this context. -/
  | going (t : Transaction)
  /-- It responds with this word and its context ceases to exist. -/
  | responds (r : Response)
  deriving DecidableEq, Repr

/-- One row of the table of ENC (R154). -/
def encAction (cfg : Config) (ks : KeySchedule) (s : Word) : EncStage → Progress
  | .eInitial => .going (.enc .eRound1 ks (keyMix s ks.key))
  | .eRound1 => .going (.enc .eRound2 ks (keyMix (mixCol cfg (shiftRows (byteSub cfg s))) ks.rk1))
  | .eRound2 => .going (.enc .eDone ks (keyMix (shiftRows (byteSub cfg s)) ks.rk2))
  | .eDone => .responds (packResponse 0 s)

/-- One row of the table of DEC (R155). -/
def decAction (cfg : Config) (ks : KeySchedule) (s : Word) : DecStage → Progress
  | .dInitial => .going (.dec .dInvRound2 ks (keyMix s ks.rk2))
  | .dInvRound2 => .going (.dec .dInvRound1 ks (invByteSub cfg (shiftRows s)))
  | .dInvRound1 => .going (.dec .dFinal ks (invByteSub cfg (shiftRows (invMixCol cfg (keyMix s ks.rk1)))))
  | .dFinal => .going (.dec .dDone ks (keyMix s ks.key))
  | .dDone => .responds (packResponse 0 s)

/-- One iteration of GFMUL's loop; the iteration numbered 3 is the last (40_gf_arithmetic.md R81; log 9). -/
def mulAction (m : Multiplier) : Progress :=
  if m.i = 3 then .going (.gfmulDone (iterateMul m).acc) else .going (.gfmul (iterateMul m))

/-- One action of the stage machine on a transaction in flight (R154, R155; log 9). -/
def advance (cfg : Config) : Transaction → Progress
  | .keyexp ks => .responds (packResponse ks.rk1 ks.rk2)
  | .enc stage ks s => encAction cfg ks s stage
  | .dec stage ks s => decAction cfg ks s stage
  | .gfmul m => mulAction m
  | .gfmulDone acc => .responds (packResponse 0 (zextNibble acc))

end Sys2Proof.Machine
end

