-- ==== Sys2Proof/Machine/State.lean ====
section
/-! DEFINITION. The machine's state as plain data, its (empty) set of faults, its refusals, and the state after reset. -/

namespace Sys2Proof.Machine

/-- The reasons the machine stops with a fault: none. "The engine raises no exception, fault, trap or error of any kind,
on any request" (60_exceptions.md R175; log 16). -/
inductive Fault where
  deriving DecidableEq, Repr

/-- The reasons the machine refuses an instruction. -/
inductive Refusal where
  /-- An instruction without a meaning yet, raised by an arm of `exec` only. No arm raises it: all four operations have
  their meaning (log 16). Safe: the machine stops. -/
  | notModelled (mnemonic : String)
  deriving DecidableEq, Repr

/-- The machine between two steps. -/
structure State where
  /-- The four constant tables, fixed for the run (10_state.md R24, 20_memory.md R41; log 1). -/
  config : Config
  /-- The request port: requests issued by hosts and not yet accepted, oldest first (10_state.md R21,
  60_exceptions.md R182; log 3). -/
  requests : List Request
  /-- The contexts of the transactions in flight, oldest first (10_state.md R22, 60_exceptions.md R182; log 5, 6). -/
  inFlight : List Transaction
  /-- The response port: the responses delivered so far, oldest first (10_state.md R21, 70_reset_and_hazards.md R202;
  log 4). -/
  responses : List Response
  deriving DecidableEq, Repr

/-- After reset (10_state.md R31, 70_reset_and_hazards.md R195, R196): the tables hold their configured values, here
the spec's defaults (log 2), no transaction is in flight, nothing has been requested or answered. -/
def State.reset : State := { config := defaultConfig, requests := [], inFlight := [], responses := [] }

end Sys2Proof.Machine
end

