-- ==== Sys2Proof/Machine/Ops.lean ====
section
/-! DEFINITION. The named operations on the machine's state: what the engine does at its two ports and what a host or a
reset does to it. There is no register, memory, flag or exception operation, because the engine has none of these
(10_state.md R25 to R28, 20_memory.md R40, 60_exceptions.md R175, R179). -/

namespace Sys2Proof.Machine

/-- `respond(hi, lo)`: the response word is delivered after those already delivered (30_encoding.md R64,
20_memory.md R54). -/
def deliver (r : Response) (s : State) : State := { s with responses := s.responses ++ [r] }

/-- Takes the oldest request off the request port, if there is one (20_memory.md R54). -/
def takeRequest (s : State) : Option (Request × State) :=
  match s.requests with
  | [] => none
  | r :: rest => some (r, { s with requests := rest })

/-- Accepts the oldest request without performing it: its transaction is in flight, behind those already there (the
"(request accepted)" row of 44_cipher_pipeline.md R154 and R155; log 5, 6). With no request, nothing happens. -/
def acceptNext (s : State) : State :=
  match s.requests with
  | [] => s
  | r :: rest => { s with requests := rest, inFlight := s.inFlight ++ [beginTransaction s.config (decode r)] }

/-- One action of the stage machine on the oldest transaction in flight, `others` being those behind it
(44_cipher_pipeline.md R154, R155; responses in request order, 20_memory.md R54; log 6). -/
def continueTransaction (t : Transaction) (others : List Transaction) (s : State) : State :=
  match advance s.config t with
  | .going t' => { s with inFlight := t' :: others }
  | .responds r => deliver r { s with inFlight := others }

/-- A host issues a request (60_exceptions.md R182). -/
def State.issue (r : Request) (s : State) : State := { s with requests := s.requests ++ [r] }

/-- Reset applied to a running engine: the transactions in flight are abandoned and produce no response
(70_reset_and_hazards.md R195; log 12). -/
def State.applyReset (s : State) : State := { s with inFlight := [] }

/-- Makes `r` the request the engine performs next: nothing is in flight before it and it is the oldest request
(log 14). -/
def placeRequest (r : Request) (s : State) : State := { s with requests := r :: s.requests, inFlight := [] }

end Sys2Proof.Machine
end

