-- ==== Sys2Proof/Machine/Cipher.lean ====
section
/-! DEFINITION. The meanings of ENC and DEC (44_cipher_pipeline.md R151, R153). -/

namespace Sys2Proof.Machine

/-- ENC: responds with the encryption of `x` under `k` in the low half (R151, R64). -/
def execEnc (x k : Word) (s : State) : Host.Outcome State Fault Refusal :=
  .next (deliver (packResponse 0 (encrypt s.config x k)) s)

/-- DEC: responds with the decryption of `x` under `k` in the low half (R153, R64). -/
def execDec (x k : Word) (s : State) : Host.Outcome State Fault Refusal :=
  .next (deliver (packResponse 0 (decrypt s.config x k)) s)

end Sys2Proof.Machine
end

