-- ==== Sys2Proof/Machine/FieldMultiply.lean ====
section
/-! DEFINITION. The meaning of GFMUL (40_gf_arithmetic.md R86). -/

namespace Sys2Proof.Machine

/-- GFMUL: responds with the field product of `a` and `b`, zero-extended; `u` and `v` are ignored (R86, R63, R64). -/
def execGfmul (_u : BitVec 12) (a : Nibble) (_v : BitVec 12) (b : Nibble) (s : State) :
    Host.Outcome State Fault Refusal :=
  .next (deliver (packResponse 0 (zextNibble (gfMul a b))) s)

end Sys2Proof.Machine
end

