-- ==== Sys2Proof/Machine/KeyExpand.lean ====
section
/-! DEFINITION. The meaning of KEYEXP (42_key_schedule.md R116). -/

namespace Sys2Proof.Machine

/-- KEYEXP: responds with the two round keys of `k`, the first in the high half; `x` is ignored (R116, R63, R64). -/
def execKeyexp (_x k : Word) (s : State) : Host.Outcome State Fault Refusal :=
  let rk := keyExpansion s.config k
  .next (deliver (packResponse rk.1 rk.2) s)

end Sys2Proof.Machine
end

