-- ==== Sys2Proof/Machine/Dispatch.lean ====
section
/-! DEFINITION. One arm per operation (30_encoding.md R61, R69). -/

namespace Sys2Proof.Machine

def exec (i : Instr) (s : State) : Host.Outcome State Fault Refusal :=
  match i with
  | .keyexp x k => Sys2Proof.Machine.execKeyexp x k s
  | .enc x k => Sys2Proof.Machine.execEnc x k s
  | .dec x k => Sys2Proof.Machine.execDec x k s
  | .gfmul u a v b => Sys2Proof.Machine.execGfmul u a v b s

end Sys2Proof.Machine
end

