-- ==== Sys2Proof/Machine/Step.lean ====
section
/-! DEFINITION. One step of the machine, and how a request word is placed so that the next step performs it. -/

namespace Sys2Proof.Machine

/-- One step. A transaction in flight is older than every request still waiting, so the oldest one goes on by one
action (20_memory.md R54, 70_reset_and_hazards.md R201). Otherwise the oldest request is accepted, decoded and performed
as one atomic transaction (20_memory.md R54, 44_cipher_pipeline.md R156; log 5). With neither, the engine is idle and
stays as it is (70_reset_and_hazards.md R195; log 7). -/
def step (s : State) : Host.Outcome State Fault Refusal :=
  match s.inFlight with
  | t :: others => .next (continueTransaction t others s)
  | [] =>
    match takeRequest s with
    | some (r, s') => exec (decode r) s'
    | none => .next s

/-- `s` with the request word `w` as the one the next step performs (log 14). A number of more than 34 bits is no
request word: the boundary refuses it and the engine is left as it is (30_encoding.md R66; log 10). -/
def State.withFetchWord (s : State) (_nbits w : Nat) : State :=
  match boundaryWord w with
  | .ok r => placeRequest r s
  | .error _ => s

end Sys2Proof.Machine
end

