-- ==== Sys2Proof/Machine/HostProgram.lean ====
section
/-! DEFINITION. The host's side of a run: test programs in the written form of 30_encoding.md R68, one transaction a
line, whose names are the host's variables and never engine state (10_state.md R25; log 15). -/

namespace Sys2Proof.Machine

/-- An operand of a line: a numeral, or a name bound by an earlier line. -/
inductive HostOperand where
  | numeral (v : Word)
  | name (n : Nat)
  deriving DecidableEq, Repr

/-- A line; a destination may be left out. -/
inductive HostLine where
  | keyexp (dst : Option (Nat × Nat)) (k : HostOperand)
  | enc (dst : Option Nat) (x k : HostOperand)
  | dec (dst : Option Nat) (x k : HostOperand)
  | gfmul (dst : Option Nat) (a b : HostOperand)
  deriving DecidableEq, Repr

/-- The host's variables and their values, newest first. -/
abbrev Bindings := List (Nat × Word)

/-- The value of an operand; none if it is a name that no earlier line bound. -/
def operandValue (env : Bindings) : HostOperand → Option Word
  | .numeral v => some v
  | .name n => env.lookup n

/-- A GFMUL operand is a `u4`: `zext_16` of the low nibble, a longer value being cut by the host (R68, R66; log 15). -/
def nibbleField (v : Word) : Word := zextNibble (operandNibble v)

/-- The request a line denotes, its unused bits zero (R68). -/
def lineRequest (env : Bindings) : HostLine → Option Request
  | .keyexp _ k => (operandValue env k).map fun k => packRequest 0b00#2 0 k
  | .enc _ x k => (operandValue env x).bind fun x => (operandValue env k).map fun k => packRequest 0b01#2 x k
  | .dec _ x k => (operandValue env x).bind fun x => (operandValue env k).map fun k => packRequest 0b10#2 x k
  | .gfmul _ a b => (operandValue env a).bind fun a => (operandValue env b).map fun b =>
    packRequest 0b11#2 (nibbleField a) (nibbleField b)

/-- The names a line binds, to the response fields R68 gives them. -/
def bindResponse (env : Bindings) (r : Response) : HostLine → Bindings
  | .keyexp (some (d1, d2)) _ => (d2, rspLo r) :: (d1, rspHi r) :: env
  | .enc (some d) _ _ => (d, rspLo r) :: env
  | .dec (some d) _ _ => (d, rspLo r) :: env
  | .gfmul (some d) _ _ => (d, zextNibble (operandNibble (rspLo r))) :: env
  | .keyexp none _ => env
  | .enc none _ _ => env
  | .dec none _ _ => env
  | .gfmul none _ _ => env

/-- No request waits and no transaction is in flight. -/
def State.isIdle (s : State) : Bool := s.requests.isEmpty && s.inFlight.isEmpty

/-- One line, the host alone with an idle engine: it issues the request, the engine performs it, and the host takes the
response before its next line (R68, 70_reset_and_hazards.md R199). None where a name is unbound or the engine is not
idle. -/
def runLine (l : HostLine) (env : Bindings) (s : State) : Option (Bindings × State) :=
  if s.isIdle then
    (lineRequest env l).bind fun r =>
      match step (s.issue r) with
      | .next s' => s'.responses.getLast?.map fun rsp => (bindResponse env rsp l, s')
      | .fault _ => none
      | .refused _ => none
  else none

/-- A program, line by line; the run ends when its last response is delivered (70_reset_and_hazards.md R202). -/
def runProgram : List HostLine → Bindings → State → Option (Bindings × State)
  | [], env, s => some (env, s)
  | l :: rest, env, s => (runLine l env s).bind fun p => runProgram rest p.1 p.2

/-- The names a line binds. -/
def lineBinds : HostLine → List Nat
  | .keyexp (some (d1, d2)) _ => [d1, d2]
  | .keyexp none _ => []
  | .enc d _ _ => d.toList
  | .dec d _ _ => d.toList
  | .gfmul d _ _ => d.toList

/-- An operand is a numeral of at most `width` bits or a name in `bound` (R68). -/
def operandWellFormed (width : Nat) (bound : List Nat) : HostOperand → Bool
  | .numeral v => v.toNat < 2 ^ width
  | .name n => bound.contains n

/-- Every operand of a line is well formed; GFMUL's are `u4`, the others' `u16` (R68, R61). -/
def lineWellFormed (bound : List Nat) : HostLine → Bool
  | .keyexp _ k => operandWellFormed 16 bound k
  | .enc _ x k => operandWellFormed 16 bound x && operandWellFormed 16 bound k
  | .dec _ x k => operandWellFormed 16 bound x && operandWellFormed 16 bound k
  | .gfmul _ a b => operandWellFormed 4 bound a && operandWellFormed 4 bound b

/-- Every line uses only names bound by an earlier line (R68). -/
def programWellFormed (bound : List Nat) : List HostLine → Bool
  | [] => true
  | l :: rest => lineWellFormed bound l && programWellFormed (bound ++ lineBinds l) rest

end Sys2Proof.Machine
end

