-- ==== Sys2Proof/WellFormed.lean ====
section
/-! DEFINITION. What must hold of an instruction (nothing, 30_encoding.md R65), of one in the written form
(30_encoding.md R68), and of a configuration (00_scope.md R7). -/

namespace Sys2Proof

/-- Every decoded request is a legal operation with legal operands: the types carry all of it (30_encoding.md R65). -/
def Instr.wellFormed : Instr → Bool
  | .keyexp _ _ => true
  | .enc _ _ => true
  | .dec _ _ => true
  | .gfmul _ _ _ _ => true

/-- The request a line of the written form denotes has its unused bits zero (30_encoding.md R68). -/
def Instr.unusedBitsZero : Instr → Bool
  | .keyexp x _ => x == 0
  | .enc _ _ => true
  | .dec _ _ => true
  | .gfmul u _ v _ => u == 0 && v == 0

/-- `INV_SBOX[SBOX[n]] = n` for every nibble (00_scope.md R7, 41_substitution.md R96). That each table is a bijection
follows. -/
abbrev Config.TablesInverse (cfg : Config) : Prop :=
  ∀ n : Nibble, Machine.tabRead cfg.invSbox (Machine.tabRead cfg.sbox n) = n

/-- `INV_MIX · MIX` is the identity (00_scope.md R7, 43_round_transforms.md R132). -/
abbrev Config.MixLeftInverse (cfg : Config) : Prop := Machine.matMul cfg.invMix cfg.mix = Machine.identityMatrix

/-- `MIX · INV_MIX` is the identity (00_scope.md R7, 43_round_transforms.md R132). -/
abbrev Config.MixRightInverse (cfg : Config) : Prop := Machine.matMul cfg.mix cfg.invMix = Machine.identityMatrix

/-- The constraints of 00_scope.md R7 on the configuration. -/
abbrev Config.WellFormed (cfg : Config) : Prop :=
  cfg.TablesInverse ∧ cfg.MixLeftInverse ∧ cfg.MixRightInverse

end Sys2Proof
end

