-- ==== Sys2Proof/Safety.lean ====
section
/-! DEFINITION. The terms claims about runs use: the engine as one function from request to response
(30_encoding.md R69), what every pending request is owed, and the coherence of transactions in flight. -/

namespace Sys2Proof.Machine

/-- The engine's whole behaviour as one total function, by the `op` field of the request word (R69). -/
def engine (cfg : Config) (r : Request) : Response :=
  if reqOp r = 0b00#2 then packResponse (keyExpansion cfg (reqK r)).1 (keyExpansion cfg (reqK r)).2
  else if reqOp r = 0b01#2 then packResponse 0 (encrypt cfg (reqX r) (reqK r))
  else if reqOp r = 0b10#2 then packResponse 0 (decrypt cfg (reqX r) (reqK r))
  else packResponse 0 (zextNibble (gfMul (operandNibble (reqX r)) (operandNibble (reqK r))))

/-- The block an ENC still owes, as a function of what its remaining stages have to do (44_cipher_pipeline.md R154). -/
def encOwed (cfg : Config) (ks : KeySchedule) (s : Word) : EncStage → Word
  | .eInitial =>
    shiftRows (byteSub cfg (mixCol cfg (shiftRows (byteSub cfg (s ^^^ ks.key))) ^^^ ks.rk1)) ^^^ ks.rk2
  | .eRound1 => shiftRows (byteSub cfg (mixCol cfg (shiftRows (byteSub cfg s)) ^^^ ks.rk1)) ^^^ ks.rk2
  | .eRound2 => shiftRows (byteSub cfg s) ^^^ ks.rk2
  | .eDone => s

/-- The block a DEC still owes, as a function of what its remaining stages have to do (44_cipher_pipeline.md R155). -/
def decOwed (cfg : Config) (ks : KeySchedule) (s : Word) : DecStage → Word
  | .dInitial =>
    invByteSub cfg (shiftRows (invMixCol cfg (invByteSub cfg (shiftRows (s ^^^ ks.rk2)) ^^^ ks.rk1))) ^^^ ks.key
  | .dInvRound2 => invByteSub cfg (shiftRows (invMixCol cfg (invByteSub cfg (shiftRows s) ^^^ ks.rk1))) ^^^ ks.key
  | .dInvRound1 => invByteSub cfg (shiftRows (invMixCol cfg (s ^^^ ks.rk1))) ^^^ ks.key
  | .dFinal => s ^^^ ks.key
  | .dDone => s

/-- The response a transaction in flight will deliver (44_cipher_pipeline.md R156). -/
def owedResponse (cfg : Config) : Transaction → Response
  | .keyexp ks => packResponse ks.rk1 ks.rk2
  | .enc stage ks s => packResponse 0 (encOwed cfg ks s stage)
  | .dec stage ks s => packResponse 0 (decOwed cfg ks s stage)
  | .gfmul m => packResponse 0 (zextNibble (runMul (gfIter - m.i.toNat) m).acc)
  | .gfmulDone acc => packResponse 0 (zextNibble acc)

/-- Every response a state has delivered or owes, in the order of their requests: those delivered, those of the
transactions in flight, those of the requests still waiting (20_memory.md R54). -/
def State.promised (s : State) : List Response :=
  s.responses ++ s.inFlight.map (owedResponse s.config) ++ s.requests.map (engine s.config)

/-- How many requests are still owed a response. -/
def State.outstanding (s : State) : Nat := s.requests.length + s.inFlight.length

/-- A transaction's round keys are those of its own key (44_cipher_pipeline.md R154, R155, R159). -/
def Transaction.Coherent (cfg : Config) : Transaction → Prop
  | .keyexp ks => ks = expandKey cfg ks.key
  | .enc _ ks _ => ks = expandKey cfg ks.key
  | .dec _ ks _ => ks = expandKey cfg ks.key
  | .gfmul _ => True
  | .gfmulDone _ => True

/-- The machine's invariant: the configuration meets its constraints (00_scope.md R7) and every transaction in flight
is coherent. -/
def State.Inv (s : State) : Prop := s.config.WellFormed ∧ ∀ t ∈ s.inFlight, t.Coherent s.config

/-- How many steps a transaction in flight still takes, its response among them: for ENC and DEC the counts of
44_cipher_pipeline.md R158, for KEYEXP and GFMUL the model's own (log 9). -/
def stepsLeft : Transaction → Nat
  | .keyexp _ => 1
  | .enc .eInitial _ _ => 4
  | .enc .eRound1 _ _ => 3
  | .enc .eRound2 _ _ => 2
  | .enc .eDone _ _ => 1
  | .dec .dInitial _ _ => 5
  | .dec .dInvRound2 _ _ => 4
  | .dec .dInvRound1 _ _ => 3
  | .dec .dFinal _ _ => 2
  | .dec .dDone _ _ => 1
  | .gfmul m => 5 - m.i.toNat
  | .gfmulDone _ => 1

/-- How many steps a state takes until every request is answered: one for each request still waiting (log 5), and those
its transactions in flight still take (log 6, 9). -/
def State.stepsToQuiet (s : State) : Nat := (s.inFlight.map stepsLeft).sum + s.requests.length

/-- `k` steps of the machine, stopping at the first fault or refusal. -/
def runSteps : Nat → State → Host.Outcome State Fault Refusal
  | 0, s => .next s
  | k + 1, s =>
    match step s with
    | .next t => runSteps k t
    | .fault r => .fault r
    | .refused r => .refused r

end Sys2Proof.Machine
end

