-- ==== Sys2Proof/Certificates/Slice0/Obligations.lean ====
section
/-! DEFINITION. The statements for the provers, one `Prop` each, in the order of OBLIGATIONS.json. A statement about a
state holds for every content of its four tables unless a hypothesis says otherwise. -/

open Sys2Proof Sys2Proof.Machine

/-! ### Request words -/

/-- Decoding the encoding of an operation gives it back, with every operand and every ignored field at every value. -/
def Obligations.DecodeEncodeRoundTrip : Prop :=
  ∀ i : Instr, i.wellFormed = true → decode (encode i) = i

/-- Every request word is the encoding of what it decodes to: no word is illegal (30_encoding.md section 4), and no bit is
dropped and no two words decode alike. The last two hold by the model's choice to keep in the decoded operation the bits
that R63 ignores (log 11). -/
def Obligations.EncodeDecodeRoundTrip : Prop :=
  ∀ r : Request, encode (decode r) = r

/-- Which operation each value of `op` selects and where its operands lie, bit by bit (R61, R62). -/
def Obligations.DecodeSelectsByOperationCode : Prop :=
  (∀ x k : Word, decode (0b00#2 ++ x ++ k) = .keyexp x k) ∧
  (∀ x k : Word, decode (0b01#2 ++ x ++ k) = .enc x k) ∧
  (∀ x k : Word, decode (0b10#2 ++ x ++ k) = .dec x k) ∧
  (∀ (u v : BitVec 12) (a b : Nibble), decode (0b11#2 ++ u ++ a ++ v ++ b) = .gfmul u a v b)

/-- Request words the spec writes out, and what they stand for (R68, R86, R116, R153). -/
def Obligations.WrittenWordsDecode : Prop :=
  decode 0x000004AF5#34 = .keyexp 0x0000 0x4AF5 ∧
  decode 0x11234ABCD#34 = .enc 0x1234 0xABCD ∧
  decode 0x2AB86ABCD#34 = .dec 0xAB86 0xABCD ∧
  decode 0x300040009#34 = .gfmul 0x000 0x4 0x000 0x9 ∧
  decode 0x3FFF4ABC9#34 = .gfmul 0xFFF 0x4 0xABC 0x9

/-- The boundary in front of the engine decodes a number of at most 34 bits and refuses any other; that a number of more
bits is refused there is the model's reading of R66 (log 10). -/
def Obligations.BoundaryAdmitsExactly34Bits : Prop :=
  ∀ nbits w : Nat,
    (w < 2 ^ 34 → decodeTableWord nbits w = some (decode (BitVec.ofNat 34 w))) ∧
    (2 ^ 34 ≤ w → decodeTableWord nbits w = none ∧ boundaryWord w = .error .invalidInputLength)

/-! ### What a step does -/

/-- With nothing in flight, a step performs the oldest waiting request whole, and nothing else. That one step performs a
whole transaction is the model's choice (log 5), one of the granularities the spec allows: "A model that performs each
transaction as one atomic step at acceptance satisfies this rule" (20_memory.md section 4; 44_cipher_pipeline.md
section 3). -/
def Obligations.StepPerformsOldestRequest : Prop :=
  ∀ (s : State) (r : Request) (rest : List Request), s.inFlight = [] → s.requests = r :: rest →
    step s = exec (decode r) { s with requests := rest }

/-- The next step performs the word `withFetchWord` places, with nothing in flight before it. How a word comes to be
performed is the model's choice (log 14). -/
def Obligations.PlacedWordIsPerformedNext : Prop :=
  ∀ (s : State) (nbits w : Nat), w < 2 ^ 34 →
    step (s.withFetchWord nbits w) = exec (decode (BitVec.ofNat 34 w)) { s with inFlight := [] }

/-- With no request waiting and nothing in flight, a step leaves the engine as it is. That an idle engine steps at all
is the model's choice (log 7). -/
def Obligations.IdleEngineStaysAsItIs : Prop :=
  ∀ s : State, s.isIdle = true → step s = .next s

/-- No operation and no step ends in a fault or a refusal (R175). -/
def Obligations.NothingFaultsOrRefuses : Prop :=
  (∀ (i : Instr) (s : State), ∃ t, exec i s = .next t) ∧ ∀ s : State, ∃ t, step s = .next t

/-- A step at a waiting request delivers what the engine responds, written as one function of the word's bits: the
function of 30_encoding.md section 7, "the engine's whole behaviour as one total function from request word to response
word", which the spec derives from R60 to R64. That one step takes the oldest request and delivers its whole response is
the model's choice (log 5) among the granularities that 20_memory.md section 4 and 44_cipher_pipeline.md section 3
allow. -/
def Obligations.StepIsTheEngineFunction : Prop :=
  ∀ (s : State) (r : Request) (rest : List Request), s.inFlight = [] → s.requests = r :: rest →
    step s = .next { s with
      requests := rest
      responses := s.responses ++ [
        if r.extractLsb' 32 2 = 0b00#2 then
          (keyExpansion s.config (r.extractLsb' 0 16)).1 ++ (keyExpansion s.config (r.extractLsb' 0 16)).2
        else if r.extractLsb' 32 2 = 0b01#2 then
          0#16 ++ encrypt s.config (r.extractLsb' 16 16) (r.extractLsb' 0 16)
        else if r.extractLsb' 32 2 = 0b10#2 then
          0#16 ++ decrypt s.config (r.extractLsb' 16 16) (r.extractLsb' 0 16)
        else
          0#28 ++ gfMul (r.extractLsb' 16 4) (r.extractLsb' 0 4)] }

/-! ### The four operations: the response, and that nothing else changes -/

/-- KEYEXP completes in every state and responds with `{w2, w3}` above `{w4, w5}` (R112 to R116). -/
def Obligations.KeyexpResponds : Prop :=
  ∀ (x k : Word) (s : State),
    let w0 : Byte := k.extractLsb' 8 8
    let w1 : Byte := k.extractLsb' 0 8
    let w2 : Byte := w0 ^^^ 0x80#8 ^^^ subByte s.config .forward (rotNib w1)
    let w3 : Byte := w2 ^^^ w1
    let w4 : Byte := w2 ^^^ 0x30#8 ^^^ subByte s.config .forward (rotNib w3)
    let w5 : Byte := w4 ^^^ w3
    exec (.keyexp x k) s = .next { s with responses := s.responses ++ [(w2 ++ w3) ++ (w4 ++ w5)] }

/-- ENC completes in every state and responds with the encryption of `x` under `k` in the low half (R150, R151). -/
def Obligations.EncResponds : Prop :=
  ∀ (x k : Word) (s : State),
    let rk1 : Word := (keyExpansion s.config k).1
    let rk2 : Word := (keyExpansion s.config k).2
    exec (.enc x k) s = .next { s with
      responses := s.responses ++ [0#16 ++
        (shiftRows (byteSub s.config (mixCol s.config (shiftRows (byteSub s.config (x ^^^ k))) ^^^ rk1)) ^^^ rk2)] }

/-- DEC completes in every state and responds with the decryption of `x` under `k` in the low half (R152, R153). -/
def Obligations.DecResponds : Prop :=
  ∀ (x k : Word) (s : State),
    let rk1 : Word := (keyExpansion s.config k).1
    let rk2 : Word := (keyExpansion s.config k).2
    exec (.dec x k) s = .next { s with
      responses := s.responses ++ [0#16 ++
        (invByteSub s.config (shiftRows (invMixCol s.config
          (invByteSub s.config (shiftRows (x ^^^ rk2)) ^^^ rk1))) ^^^ k)] }

/-- GFMUL completes in every state and responds with the field product, zero-extended; the corner cases of R86 beside
it: a factor 0 or 1, and the factors exchanged. -/
def Obligations.GfmulResponds : Prop :=
  ∀ (u v : BitVec 12) (a b : Nibble) (s : State),
    exec (.gfmul u a v b) s = .next { s with responses := s.responses ++ [0#28 ++ gfMul a b] } ∧
    exec (.gfmul u 0 v b) s = .next { s with responses := s.responses ++ [0#32] } ∧
    exec (.gfmul u a v 0) s = .next { s with responses := s.responses ++ [0#32] } ∧
    exec (.gfmul u a v 1) s = .next { s with responses := s.responses ++ [0#28 ++ a] } ∧
    exec (.gfmul u a v b) s = exec (.gfmul v b u a) s

/-- Bits an operation does not use do not affect what it does (R63). -/
def Obligations.UnusedBitsAreIgnored : Prop :=
  ∀ s : State,
    (∀ x x' k : Word, exec (decode (0b00#2 ++ x ++ k)) s = exec (decode (0b00#2 ++ x' ++ k)) s) ∧
    ∀ (u u' v v' : BitVec 12) (a b : Nibble),
      exec (decode (0b11#2 ++ u ++ a ++ v ++ b)) s = exec (decode (0b11#2 ++ u' ++ a ++ v' ++ b)) s

/-- The frame of all four operations: one response is appended, and the tables, the waiting requests, the transactions
in flight and the earlier responses are as they were (R20, R24). -/
def Obligations.OperationsOnlyAppendOneResponse : Prop :=
  ∀ (i : Instr) (s t : State), exec i s = .next t →
    t.config = s.config ∧ t.requests = s.requests ∧ t.inFlight = s.inFlight ∧
    ∃ r : Response, t.responses = s.responses ++ [r]

/-- What an operation responds depends on its own request and the tables only: in any two states with the same tables,
whatever has gone before and whatever else is pending, it responds the same (R51, R110). -/
def Obligations.ResponseDependsOnRequestAndTablesOnly : Prop :=
  ∀ (i : Instr) (s t s' t' : State) (r r' : Response), s.config = t.config →
    exec i s = .next s' → exec i t = .next t' →
    s'.responses = s.responses ++ [r] → t'.responses = t.responses ++ [r'] → r = r'

/-! ### Field arithmetic -/

/-- The multiplier's loop is polynomial multiplication reduced by x^4+x+1: the seven product coefficients of the
carry-less product, with x^4 = x+1, x^5 = x^2+x and x^6 = x^3+x^2; `POLY` is that polynomial's pattern (R80). -/
def Obligations.GfMulIsPolynomialProduct : Prop :=
  poly = 0b10011#5 ∧ ∀ a b : Nibble,
    let p : BitVec 7 :=
      (if b.getLsbD 0 then a.setWidth 7 else 0) ^^^ (if b.getLsbD 1 then a.setWidth 7 <<< 1 else 0) ^^^
      (if b.getLsbD 2 then a.setWidth 7 <<< 2 else 0) ^^^ (if b.getLsbD 3 then a.setWidth 7 <<< 3 else 0)
    gfMul a b = p.extractLsb' 0 4 ^^^ (if p.getLsbD 4 then 0b0011#4 else 0) ^^^
      (if p.getLsbD 5 then 0b0110#4 else 0) ^^^ (if p.getLsbD 6 then 0b1100#4 else 0)

/-- The laws the source states for the multiplier (R83). -/
def Obligations.GfMulLaws : Prop :=
  (∀ a b : Nibble, gfMul a b = gfMul b a) ∧
  (∀ a b c : Nibble, gfMul a (b ^^^ c) = gfMul a b ^^^ gfMul a c) ∧
  (∀ a : Nibble, gfMul a 0 = 0 ∧ gfMul a 1 = a) ∧
  ∀ a b : Nibble, (gfMul a b).toNat ≤ 15

/-- The multiplication by 2, 4, 8 and 9 as bit equations (the equations of 40_gf_arithmetic.md section 2, which the spec
derives from R81). -/
def Obligations.GfMulByMixConstants : Prop :=
  ∀ n : Nibble,
    let b0 := n.getLsbD 0
    let b1 := n.getLsbD 1
    let b2 := n.getLsbD 2
    let b3 := n.getLsbD 3
    let bits (c3 c2 c1 c0 : Bool) : Nibble :=
      BitVec.ofBool c3 ++ BitVec.ofBool c2 ++ BitVec.ofBool c1 ++ BitVec.ofBool c0
    gfMul 2 n = bits b2 b1 (b0 ^^ b3) b3 ∧ gfMul 4 n = bits b1 (b0 ^^ b3) (b2 ^^ b3) b2 ∧
    gfMul 8 n = bits (b0 ^^ b3) (b2 ^^ b3) (b1 ^^ b2) b1 ∧ gfMul 9 n = bits b0 b3 b2 (b0 ^^ b1)

/-! ### Substitution -/

/-- Each substitution function looks every nibble up in place, in the table its selector selects (R99, R100). -/
def Obligations.SubstitutionIsNibblewise : Prop :=
  ∀ cfg : Config,
    (∀ n : Nibble, subNib cfg .forward n = tabRead cfg.sbox n ∧ subNib cfg .inverse n = tabRead cfg.invSbox n) ∧
    (∀ (sel : Selector) (b : Byte),
      subByte cfg sel b = subNib cfg sel (b.extractLsb' 4 4) ++ subNib cfg sel (b.extractLsb' 0 4)) ∧
    ∀ (sel : Selector) (s : Word),
      subState cfg sel s = subNib cfg sel (s.extractLsb' 12 4) ++ subNib cfg sel (s.extractLsb' 8 4) ++
        subNib cfg sel (s.extractLsb' 4 4) ++ subNib cfg sel (s.extractLsb' 0 4)

/-- Tables of which one undoes the other are both bijections, and each undoes the other (41_substitution.md section 1;
that the second identity follows is the spec's own inference in R96). -/
def Obligations.TablesAreMutuallyInverseBijections : Prop :=
  ∀ cfg : Config, cfg.TablesInverse →
    Function.Bijective (tabRead cfg.sbox) ∧ Function.Bijective (tabRead cfg.invSbox) ∧
    ∀ n : Nibble, tabRead cfg.sbox (tabRead cfg.invSbox n) = n

/-- ByteSubstitute and InverseByteSubstitute apply the forward and the inverse table to the State, and undo each other on
every State (R127, R128). -/
def Obligations.ByteSubstituteInverse : Prop :=
  ∀ cfg : Config, cfg.TablesInverse →
    ∀ s : Word, byteSub cfg s = subState cfg .forward s ∧ invByteSub cfg s = subState cfg .inverse s ∧
      invByteSub cfg (byteSub cfg s) = s ∧ byteSub cfg (invByteSub cfg s) = s

/-! ### Key schedule -/

/-- `rot_nib` swaps the nibbles of a byte and is its own inverse (R111). -/
def Obligations.RotNibSwapsNibbles : Prop :=
  ∀ b : Byte, rotNib b = b.extractLsb' 0 4 ++ b.extractLsb' 4 4 ∧ rotNib (rotNib b) = b

/-- Every named value of the key schedule, step 3 rotating `w3` and not `w1` again (R112 to R115). -/
def Obligations.KeyScheduleValues : Prop :=
  ∀ (cfg : Config) (key : Word),
    let ks := expandKey cfg key
    ks.w0 = key.extractLsb' 8 8 ∧ ks.w1 = key.extractLsb' 0 8 ∧
    ks.w2 = ks.w0 ^^^ 0x80#8 ^^^ subByte cfg .forward (rotNib ks.w1) ∧ ks.w3 = ks.w2 ^^^ ks.w1 ∧
    ks.w4 = ks.w2 ^^^ 0x30#8 ^^^ subByte cfg .forward (rotNib ks.w3) ∧ ks.w5 = ks.w4 ^^^ ks.w3 ∧
    ks.rk1 = (ks.w2.setWidth 16 <<< 8) ||| ks.w3.setWidth 16 ∧
    ks.rk2 = (ks.w4.setWidth 16 <<< 8) ||| ks.w5.setWidth 16 ∧
    keyExpansion cfg key = (ks.rk1, ks.rk2)

/-! ### Round transforms -/

/-- KeyMix is XOR and undoes itself (R126). -/
def Obligations.KeyMixIsSelfInverse : Prop :=
  ∀ s rk : Word, keyMix s rk = s ^^^ rk ∧ keyMix (keyMix s rk) rk = s

/-- ShiftRows swaps the second and fourth nibble, leaves the first and third, and undoes itself (R129). -/
def Obligations.ShiftRowsSwapsRowOne : Prop :=
  ∀ s : Word,
    shiftRows s = s.extractLsb' 12 4 ++ s.extractLsb' 0 4 ++ s.extractLsb' 4 4 ++ s.extractLsb' 8 4 ∧
    shiftRows (shiftRows s) = s

/-- ColumnMix and InverseColumnMix multiply each column, as a vector with its high nibble first, by their matrix
(R130, R131). -/
def Obligations.ColumnMixIsMatrixTimesColumn : Prop :=
  ∀ (cfg : Config) (s : Word) (m : MixMatrix) (c : Byte),
    matCol m c = (gfMul m.m00 (c.extractLsb' 4 4) ^^^ gfMul m.m01 (c.extractLsb' 0 4)) ++
      (gfMul m.m10 (c.extractLsb' 4 4) ^^^ gfMul m.m11 (c.extractLsb' 0 4)) ∧
    mixColByte cfg c = matCol cfg.mix c ∧ invMixColByte cfg c = matCol cfg.invMix c ∧
    mixCol cfg s = mixColByte cfg (s.extractLsb' 8 8) ++ mixColByte cfg (s.extractLsb' 0 8) ∧
    invMixCol cfg s = invMixColByte cfg (s.extractLsb' 8 8) ++ invMixColByte cfg (s.extractLsb' 0 8)

/-- ColumnMix and InverseColumnMix undo each other on every State, for any matrices that are inverse over the field
(43_round_transforms.md section 5). -/
def Obligations.ColumnMixInverse : Prop :=
  ∀ cfg : Config, cfg.MixLeftInverse → cfg.MixRightInverse →
    ∀ s : Word, invMixCol cfg (mixCol cfg s) = s ∧ mixCol cfg (invMixCol cfg s) = s

/-- ShiftRows, ColumnMix and InverseColumnMix are linear over XOR, whatever the matrices (43_round_transforms.md
section 5, the linearity the spec derives). -/
def Obligations.MixingIsLinear : Prop :=
  ∀ (cfg : Config) (s t : Word),
    shiftRows (s ^^^ t) = shiftRows s ^^^ shiftRows t ∧ mixCol cfg (s ^^^ t) = mixCol cfg s ^^^ mixCol cfg t ∧
    invMixCol cfg (s ^^^ t) = invMixCol cfg s ^^^ invMixCol cfg t

/-! ### The cipher -/

/-- The round-trip law, as functions and in requests: decryption undoes encryption for every plaintext and every key, and
if `ENC p, k` responds `c` then `DEC c, k` responds `p` (R160), for any tables and matrices that meet their
constraints. -/
def Obligations.DecryptUndoesEncrypt : Prop :=
  (∀ cfg : Config, cfg.WellFormed → ∀ p k : Word, decrypt cfg (encrypt cfg p k) k = p) ∧
  ∀ (s t : State) (p k c : Word), s.config.WellFormed → exec (.enc p k) s = .next t →
    t.responses = s.responses ++ [0#16 ++ c] →
    exec (.dec c k) t = .next { t with responses := t.responses ++ [0#16 ++ p] }

/-- For a fixed key encryption is a bijection on blocks whose inverse on both sides is decryption (the spec's inference
in 44_cipher_pipeline.md section 4). -/
def Obligations.EncryptIsBijective : Prop :=
  ∀ cfg : Config, cfg.WellFormed → ∀ k : Word,
    Function.Bijective (fun p => encrypt cfg p k) ∧ ∀ c : Word, encrypt cfg (decrypt cfg c k) k = c

/-- The round-trip law in a run: with the two requests waiting, two steps answer `ENC p, k` with some block `c` and
`DEC c, k` with `p` (44_cipher_pipeline.md section 4, 20_memory.md section 4). That each request takes one step is the
model's choice (log 5). -/
def Obligations.EncThenDecRespondsPlaintext : Prop :=
  ∀ (s : State) (p k : Word), s.config.WellFormed → s.inFlight = [] → s.requests = [] →
    ∃ c : Word,
      runSteps 2 ((s.issue (0b01#2 ++ p ++ k)).issue (0b10#2 ++ c ++ k)) =
        .next { s with responses := s.responses ++ [0#16 ++ c, 0#16 ++ p] }

/-! ### The stage machine -/

/-- Every row of the stage table of ENC, the acceptance among them (the rows of R154, 44_cipher_pipeline.md section 3). That
with others in flight a step moves the oldest transaction alone and leaves the rest as they are is the model's choice
(log 6); with `others` empty the clauses are the table's rows and nothing more. -/
def Obligations.EncStageTable : Prop :=
  ∀ (s : State) (ks : KeySchedule) (b x k : Word) (rest : List Request) (others : List Transaction),
    (s.requests = (0b01#2 ++ x ++ k) :: rest → acceptNext s = { s with
      requests := rest, inFlight := s.inFlight ++ [.enc .eInitial (expandKey s.config k) x] }) ∧
    step { s with inFlight := .enc .eInitial ks b :: others } =
      .next { s with inFlight := .enc .eRound1 ks (keyMix b ks.key) :: others } ∧
    step { s with inFlight := .enc .eRound1 ks b :: others } =
      .next { s with
        inFlight := .enc .eRound2 ks (keyMix (mixCol s.config (shiftRows (byteSub s.config b))) ks.rk1) :: others } ∧
    step { s with inFlight := .enc .eRound2 ks b :: others } =
      .next { s with inFlight := .enc .eDone ks (keyMix (shiftRows (byteSub s.config b)) ks.rk2) :: others } ∧
    step { s with inFlight := .enc .eDone ks b :: others } =
      .next { s with inFlight := others, responses := s.responses ++ [0#16 ++ b] }

/-- Every row of the stage table of DEC, the acceptance among them (the rows of R155, 44_cipher_pipeline.md section 3). That
with others in flight a step moves the oldest transaction alone and leaves the rest as they are is the model's choice
(log 6); with `others` empty the clauses are the table's rows and nothing more. -/
def Obligations.DecStageTable : Prop :=
  ∀ (s : State) (ks : KeySchedule) (b x k : Word) (rest : List Request) (others : List Transaction),
    (s.requests = (0b10#2 ++ x ++ k) :: rest → acceptNext s = { s with
      requests := rest, inFlight := s.inFlight ++ [.dec .dInitial (expandKey s.config k) x] }) ∧
    step { s with inFlight := .dec .dInitial ks b :: others } =
      .next { s with inFlight := .dec .dInvRound2 ks (keyMix b ks.rk2) :: others } ∧
    step { s with inFlight := .dec .dInvRound2 ks b :: others } =
      .next { s with inFlight := .dec .dInvRound1 ks (invByteSub s.config (shiftRows b)) :: others } ∧
    step { s with inFlight := .dec .dInvRound1 ks b :: others } =
      .next { s with
        inFlight :=
          .dec .dFinal ks (invByteSub s.config (shiftRows (invMixCol s.config (keyMix b ks.rk1)))) :: others } ∧
    step { s with inFlight := .dec .dFinal ks b :: others } =
      .next { s with inFlight := .dec .dDone ks (keyMix b ks.key) :: others } ∧
    step { s with inFlight := .dec .dDone ks b :: others } =
      .next { s with inFlight := others, responses := s.responses ++ [0#16 ++ b] }

/-- Accepting a request and running its stage machine to its response ends in the state one atomic step ends in: after
4 steps for ENC, 5 for DEC (44_cipher_pipeline.md section 3, the agreement the spec derives), 1 for KEYEXP and 5 for
GFMUL (the model's own granularity, log 9). The atomic step is the model's choice too (log 5). -/
def Obligations.StageMachineEndsAsTheAtomicStep : Prop :=
  ∀ (s : State) (r : Request) (rest : List Request), s.inFlight = [] → s.requests = r :: rest →
    runSteps (match decode r with
      | .keyexp _ _ => 1
      | .enc _ _ => 4
      | .dec _ _ => 5
      | .gfmul _ _ _ _ => 5) (acceptNext s) = step s

/-! ### Runs -/

/-- From a state with nothing in flight, `n` steps answer the first `n` waiting requests in their order, one response for
each: "Responses are delivered in the order their requests were accepted, one response per request" (20_memory.md
section 4). That each request takes one step is the model's choice (log 5). -/
def Obligations.ResponsesInRequestOrder : Prop :=
  ∀ (n : Nat) (s : State), s.inFlight = [] → n ≤ s.requests.length →
    runSteps n s = .next { s with
      requests := s.requests.drop n
      responses := s.responses ++ (s.requests.take n).map (engine s.config) }

/-- The responses delivered, those the transactions in flight owe and those the waiting requests are owed make one list
that neither a step nor an acceptance changes: whether a request is performed atomically or stage by stage, alone or
among others, its response and its place are the same (20_memory.md section 4, 44_cipher_pipeline.md section 3). -/
def Obligations.PromisedResponsesAreKept : Prop :=
  ∀ s : State, (acceptNext s).promised = s.promised ∧ ∀ t : State, step s = .next t → t.promised = s.promised

/-- No step and no acceptance loses or adds a response owed, and a delivered response stays as it is. -/
def Obligations.OneResponsePerRequest : Prop :=
  ∀ s : State, (acceptNext s).outstanding = s.outstanding ∧ (acceptNext s).responses = s.responses ∧
    ∀ t : State, step s = .next t →
      t.outstanding + t.responses.length = s.outstanding + s.responses.length ∧ s.responses <+: t.responses

/-- Every request is answered: from any state, with any number of requests waiting and transactions in flight, the
machine is idle after `stepsToQuiet` steps and has delivered exactly the responses promised
(70_reset_and_hazards.md section 4). The count follows the model's choices: one step for a waiting request (log 5), the
oldest transaction in flight first (log 6), an action for an accepted KEYEXP and five for an accepted GFMUL (log 9); the
4 and 5 of an accepted ENC and DEC are the spec's (44_cipher_pipeline.md section 3). -/
def Obligations.EveryRequestIsAnswered : Prop :=
  ∀ s : State, ∃ t : State, runSteps s.stepsToQuiet s = .next t ∧ t.isIdle = true ∧ t.responses = s.promised ∧
    t.config = s.config

/-- The tables never change: not by a step, not by an acceptance, not by a request issued, not by reset
(R24: "nothing writes them"). -/
def Obligations.TablesNeverChange : Prop :=
  ∀ (s : State) (r : Request), (acceptNext s).config = s.config ∧ (s.issue r).config = s.config ∧
    s.applyReset.config = s.config ∧ ∀ t : State, step s = .next t → t.config = s.config

/-- Every step and every acceptance keeps the invariant: the tables meet their constraints and every transaction in
flight holds the round keys of its own key. -/
def Obligations.StepKeepsInvariant : Prop :=
  ∀ s : State, s.Inv → (acceptNext s).Inv ∧ ∀ t : State, step s = .next t → t.Inv

/-- The invariant holds after reset: the default tables meet their constraints (defaults from general knowledge,
log 2). -/
def Obligations.ResetMeetsInvariant : Prop :=
  State.reset.Inv

/-- Reset leaves the engine idle, and the next request it accepts is performed as any other (70_reset_and_hazards.md
section 1): nothing waits, is in flight or has been delivered at State.reset. A reset applied to a running engine
abandons the transactions in flight: a request then issued is answered by its own response, and no other response comes
of them. That one step answers such a request whole is the model's choice (log 5). -/
def Obligations.ResetLeavesEngineIdle : Prop :=
  State.reset.isIdle = true ∧ State.reset.responses = [] ∧
  (∀ r : Request, step (State.reset.issue r) =
    .next { State.reset with responses := [engine State.reset.config r] }) ∧
  ∀ (s : State) (r : Request), s.applyReset.inFlight = [] ∧ s.applyReset.responses = s.responses ∧
    step { s.applyReset with requests := [r] } =
      .next { s with requests := [], inFlight := [], responses := s.responses ++ [engine s.config r] }

/-- Requests that wait, not yet accepted, are still promised their responses after a reset: the model's choice
(log 12). -/
def Obligations.WaitingRequestsOutliveReset : Prop :=
  ∀ s : State, s.applyReset.promised = s.responses ++ s.requests.map (engine s.config)

/-! ### Host programs -/

/-- The request a line denotes carries the line's operation code and has its unused bits zero, whatever the values of its
names (30_encoding.md section 6; that a longer value is cut to a GFMUL operand is the model's choice, log 15). -/
def Obligations.LinesLeaveUnusedBitsZero : Prop :=
  ∀ (l : HostLine) (env : Bindings) (r : Request), lineRequest env l = some r →
    (decode r).unusedBitsZero = true ∧
    (decode r).opcode = match l with
      | .keyexp _ _ => 0b00#2
      | .enc _ _ _ => 0b01#2
      | .dec _ _ _ => 0b10#2
      | .gfmul _ _ _ => 0b11#2

/-- Every well-formed program, each of its lines using only names that earlier lines bound, runs to its end on an idle
engine, which is idle again and has given one response for each line (30_encoding.md section 6, 70_reset_and_hazards.md
section 4). How names are held (log 15) and that one step performs a line's request (log 5) are the model's choices. -/
def Obligations.WellFormedProgramsRunToTheEnd : Prop :=
  ∀ (p : List HostLine) (env : Bindings) (s : State), s.isIdle = true →
    programWellFormed (env.map Prod.fst) p = true →
    ∃ (env' : Bindings) (t : State), runProgram p env s = some (env', t) ∧ t.isIdle = true ∧ t.config = s.config ∧
      t.responses.length = s.responses.length + p.length

/-- A host that binds the ciphertext of one line and decrypts it on the next under the same key binds the plaintext
(30_encoding.md section 6 and 44_cipher_pipeline.md section 4). How names are held (log 15) and that one step performs a
line's request (log 5) are the model's choices. -/
def Obligations.BoundCiphertextDecryptsToPlaintext : Prop :=
  ∀ (c p : Nat) (x k : Word) (env : Bindings) (s : State), s.isIdle = true → s.config.WellFormed →
    ∃ (env' : Bindings) (t : State),
      runProgram [.enc (some c) (.numeral x) (.numeral k), .dec (some p) (.name c) (.numeral k)] env s =
        some (env', t) ∧ env'.lookup p = some x
end

