-- ==== Sys2Proof/Laws/Multiplier.lean ====
section
/-! SUPPORT. The multiplier's loop: iterations compose, and the accumulator after them (40_gf_arithmetic.md R81). -/

namespace Sys2Proof.Machine

@[simp] theorem startMul_a (a b : Nibble) : (startMul a b).a = a := rfl
@[simp] theorem startMul_b (a b : Nibble) : (startMul a b).b = b := rfl
@[simp] theorem startMul_acc (a b : Nibble) : (startMul a b).acc = 0 := rfl
@[simp] theorem startMul_i (a b : Nibble) : (startMul a b).i = 0 := rfl

theorem runMul_zero (m : Multiplier) : runMul 0 m = m := rfl
theorem runMul_succ (n : Nat) (m : Multiplier) : runMul (n + 1) m = runMul n (iterateMul m) := rfl
theorem iterateMul_i (m : Multiplier) : (iterateMul m).i = m.i + 1 := rfl

/-- Multiplication by x is additive: the fold by `POLY` of a sum is the sum of the folds. -/
theorem shiftReduce_xor : ∀ a b : Nibble, shiftReduce (a ^^^ b) = shiftReduce a ^^^ shiftReduce b := by decide

end Sys2Proof.Machine
end

