-- ==== Sys2Proof/Laws/State.lean ====
section
/-! SUPPORT. One lemma per field of State per update, so that no later proof unfolds a record update. -/

namespace Sys2Proof.Machine

@[simp] theorem deliver_config (r : Response) (s : State) : (deliver r s).config = s.config := rfl
@[simp] theorem deliver_requests (r : Response) (s : State) : (deliver r s).requests = s.requests := rfl
@[simp] theorem deliver_inFlight (r : Response) (s : State) : (deliver r s).inFlight = s.inFlight := rfl
@[simp] theorem deliver_responses (r : Response) (s : State) : (deliver r s).responses = s.responses ++ [r] := rfl

@[simp] theorem issue_config (r : Request) (s : State) : (s.issue r).config = s.config := rfl
@[simp] theorem issue_requests (r : Request) (s : State) : (s.issue r).requests = s.requests ++ [r] := rfl
@[simp] theorem issue_inFlight (r : Request) (s : State) : (s.issue r).inFlight = s.inFlight := rfl
@[simp] theorem issue_responses (r : Request) (s : State) : (s.issue r).responses = s.responses := rfl

@[simp] theorem applyReset_config (s : State) : s.applyReset.config = s.config := rfl
@[simp] theorem applyReset_requests (s : State) : s.applyReset.requests = s.requests := rfl
@[simp] theorem applyReset_inFlight (s : State) : s.applyReset.inFlight = [] := rfl
@[simp] theorem applyReset_responses (s : State) : s.applyReset.responses = s.responses := rfl

@[simp] theorem placeRequest_config (r : Request) (s : State) : (placeRequest r s).config = s.config := rfl
@[simp] theorem placeRequest_requests (r : Request) (s : State) :
    (placeRequest r s).requests = r :: s.requests := rfl
@[simp] theorem placeRequest_inFlight (r : Request) (s : State) : (placeRequest r s).inFlight = [] := rfl
@[simp] theorem placeRequest_responses (r : Request) (s : State) : (placeRequest r s).responses = s.responses := rfl

@[simp] theorem reset_config : State.reset.config = defaultConfig := rfl
@[simp] theorem reset_requests : State.reset.requests = [] := rfl
@[simp] theorem reset_inFlight : State.reset.inFlight = [] := rfl
@[simp] theorem reset_responses : State.reset.responses = [] := rfl

end Sys2Proof.Machine
end

