-- ==== Sys2Proof/Laws/Ops.lean ====
section
/-! SUPPORT. For each shared operation, once, everything it can do; later proofs cite these instead of unfolding it. -/

namespace Sys2Proof.Machine

/-- Taking a request: either none waits, or the oldest one is taken and the others stay. -/
theorem takeRequest_eq (s : State) :
    (s.requests = [] ∧ takeRequest s = none) ∨
    ∃ r rest, s.requests = r :: rest ∧ takeRequest s = some (r, { s with requests := rest }) := by
  unfold takeRequest
  cases h : s.requests with
  | nil => exact .inl ⟨rfl, rfl⟩
  | cons r rest => exact .inr ⟨r, rest, rfl, rfl⟩

/-- Accepting: either none waits and nothing happens, or the oldest request becomes the youngest transaction in flight. -/
theorem acceptNext_eq (s : State) :
    (s.requests = [] ∧ acceptNext s = s) ∨
    ∃ r rest, s.requests = r :: rest ∧
      acceptNext s =
        { s with requests := rest, inFlight := s.inFlight ++ [beginTransaction s.config (decode r)] } := by
  unfold acceptNext
  cases h : s.requests with
  | nil => exact .inl ⟨rfl, rfl⟩
  | cons r rest => exact .inr ⟨r, rest, rfl, rfl⟩

/-- One action on the oldest transaction in flight: it goes on in its place, or it is gone and its response stands last. -/
theorem continueTransaction_eq (t : Transaction) (others : List Transaction) (s : State) :
    (∃ t', advance s.config t = .going t' ∧ continueTransaction t others s = { s with inFlight := t' :: others }) ∨
    ∃ r, advance s.config t = .responds r ∧
      continueTransaction t others s = { s with inFlight := others, responses := s.responses ++ [r] } := by
  unfold continueTransaction
  cases h : advance s.config t with
  | going t' => exact .inl ⟨t', rfl, rfl⟩
  | responds r => exact .inr ⟨r, rfl, rfl⟩

/-- The three things a step can be: an action on the oldest transaction in flight, the oldest request performed, or an
idle step. -/
theorem step_eq (s : State) :
    (∃ t others, s.inFlight = t :: others ∧ step s = .next (continueTransaction t others s)) ∨
    (∃ r rest, s.inFlight = [] ∧ s.requests = r :: rest ∧ step s = exec (decode r) { s with requests := rest }) ∨
    (s.inFlight = [] ∧ s.requests = [] ∧ step s = .next s) := by
  unfold step
  cases hf : s.inFlight with
  | cons t others => exact .inl ⟨t, others, rfl, rfl⟩
  | nil =>
    rcases takeRequest_eq s with ⟨hr, ht⟩ | ⟨r, rest, hr, ht⟩
    · exact .inr (.inr ⟨rfl, hr, by simp only [ht]⟩)
    · exact .inr (.inl ⟨r, rest, rfl, hr, by simp only [ht, hf]⟩)

theorem runSteps_zero (s : State) : runSteps 0 s = .next s := rfl

/-- A run goes on from the state its first step answers. -/
theorem runSteps_succ {s t : State} (h : step s = .next t) (n : Nat) : runSteps (n + 1) s = runSteps n t := by
  simp only [runSteps, h]

/-- Runs compose. -/
theorem runSteps_add {s t : State} {m : Nat} (n : Nat) (h : runSteps m s = .next t) :
    runSteps (m + n) s = runSteps n t := by
  induction m generalizing s with
  | zero => cases h; rw [Nat.zero_add]
  | succ m ih =>
    rw [Nat.succ_add]
    cases hs : step s with
    | next u => rw [runSteps_succ hs] at h ⊢; exact ih h
    | fault r => simp only [runSteps, hs] at h; cases h
    | refused r => simp only [runSteps, hs] at h; cases h

/-- A run of any core goes on from the state its first step answers. -/
theorem run_succ_of_next (M : Host.Core) (k : Nat) (s t : M.State) (h : M.step s = .next t) :
    M.run (k + 1) s = M.run k t := by simp only [Host.Core.run, h]

/-- A run of any core ends at its first fault. -/
theorem run_succ_of_fault (M : Host.Core) (k : Nat) (s : M.State) (r : M.Fault) (h : M.step s = .fault r) :
    M.run (k + 1) s = .fault r := by simp only [Host.Core.run, h]

/-- A run of any core ends at its first refusal. -/
theorem run_succ_of_refused (M : Host.Core) (k : Nat) (s : M.State) (r : M.Refusal) (h : M.step s = .refused r) :
    M.run (k + 1) s = .refused r := by simp only [Host.Core.run, h]

/-- `runSteps` is the host's own run of this machine. -/
theorem core_run_eq_runSteps (k : Nat) : ∀ s : State, Host.Core.run Sys2Proof.core k s = runSteps k s := by
  induction k with
  | zero => intro s; rfl
  | succ k ih =>
    intro s
    unfold runSteps
    cases h : step s with
    | next t => exact (run_succ_of_next Sys2Proof.core k s t h).trans (ih t)
    | fault r => exact run_succ_of_fault Sys2Proof.core k s r h
    | refused r => exact run_succ_of_refused Sys2Proof.core k s r h

end Sys2Proof.Machine
end

