-- ==== Sys2Proof/Laws/Words.lean ====
section
/-! SUPPORT. Cutting and assembling words are inverse to each other (20_memory.md R43 to R46, 30_encoding.md R60, R64),
and the parts of an XOR are the XORs of the parts. -/

namespace Sys2Proof.Machine

theorem nib0_packNibbles (a b c d : Nibble) : nib0 (packNibbles a b c d) = a := by grind [nib0, packNibbles]
theorem nib1_packNibbles (a b c d : Nibble) : nib1 (packNibbles a b c d) = b := by grind [nib1, packNibbles]
theorem nib2_packNibbles (a b c d : Nibble) : nib2 (packNibbles a b c d) = c := by grind [nib2, packNibbles]
theorem nib3_packNibbles (a b c d : Nibble) : nib3 (packNibbles a b c d) = d := by grind [nib3, packNibbles]

theorem packNibbles_nibs (s : Word) : packNibbles (nib0 s) (nib1 s) (nib2 s) (nib3 s) = s := by
  grind [packNibbles, nib0, nib1, nib2, nib3]

theorem upperByte_packBytes (u l : Byte) : upperByte (packBytes u l) = u := by grind [upperByte, packBytes]
theorem lowerByte_packBytes (u l : Byte) : lowerByte (packBytes u l) = l := by grind [lowerByte, packBytes]
theorem packBytes_bytes (s : Word) : packBytes (upperByte s) (lowerByte s) = s := by
  grind [packBytes, upperByte, lowerByte]

theorem hiNibble_packByte (h l : Nibble) : hiNibble (packByte h l) = h := by grind [hiNibble, packByte]
theorem loNibble_packByte (h l : Nibble) : loNibble (packByte h l) = l := by grind [loNibble, packByte]
theorem packByte_nibbles (b : Byte) : packByte (hiNibble b) (loNibble b) = b := by
  grind [packByte, hiNibble, loNibble]

theorem rspHi_packResponse (h l : Word) : rspHi (packResponse h l) = h := by grind [rspHi, packResponse]
theorem rspLo_packResponse (h l : Word) : rspLo (packResponse h l) = l := by grind [rspLo, packResponse]

theorem upperByte_xor (s t : Word) : upperByte (s ^^^ t) = upperByte s ^^^ upperByte t := by grind [upperByte]
theorem lowerByte_xor (s t : Word) : lowerByte (s ^^^ t) = lowerByte s ^^^ lowerByte t := by grind [lowerByte]
theorem hiNibble_xor (b c : Byte) : hiNibble (b ^^^ c) = hiNibble b ^^^ hiNibble c := by grind [hiNibble]
theorem loNibble_xor (b c : Byte) : loNibble (b ^^^ c) = loNibble b ^^^ loNibble c := by grind [loNibble]

theorem packBytes_xor (u l u' l' : Byte) :
    packBytes (u ^^^ u') (l ^^^ l') = packBytes u l ^^^ packBytes u' l' := by grind [packBytes]
theorem packByte_xor (h l h' l' : Nibble) :
    packByte (h ^^^ h') (l ^^^ l') = packByte h l ^^^ packByte h' l' := by grind [packByte]

end Sys2Proof.Machine

namespace Sys2Proof

theorem reqOp_packRequest (op : BitVec 2) (x k : Word) : reqOp (packRequest op x k) = op := by
  grind [reqOp, packRequest]
theorem reqX_packRequest (op : BitVec 2) (x k : Word) : reqX (packRequest op x k) = x := by
  grind [reqX, packRequest]
theorem reqK_packRequest (op : BitVec 2) (x k : Word) : reqK (packRequest op x k) = k := by
  grind [reqK, packRequest]
theorem packRequest_fields (r : Request) : packRequest (reqOp r) (reqX r) (reqK r) = r := by
  grind [packRequest, reqOp, reqX, reqK]

theorem operandRest_append (u : BitVec 12) (a : Nibble) : operandRest (u ++ a) = u := by grind [operandRest]
theorem operandNibble_append (u : BitVec 12) (a : Nibble) : operandNibble (u ++ a) = a := by grind [operandNibble]
theorem append_operandParts (w : Word) : operandRest w ++ operandNibble w = w := by
  grind [operandRest, operandNibble]

/-- The boundary admits a number of at most 34 bits as that request word. -/
theorem boundaryWord_of_lt {w : Nat} (h : w < 2 ^ 34) : boundaryWord w = .ok (BitVec.ofNat 34 w) := if_pos h

/-- The boundary refuses a number of more bits. -/
theorem boundaryWord_of_le {w : Nat} (h : 2 ^ 34 ≤ w) : boundaryWord w = .error .invalidInputLength := if_neg (Nat.not_lt.mpr h)

end Sys2Proof
end

