-- ==== Sys2Proof/Laws/PerInstr.lean ====
section
/-! SUPPORT. The family `CarriesFields`, one lemma per constructor of Instr: an operation's request word carries its
operation code and its two operand fields where 30_encoding.md R60 puts them. -/

namespace Sys2Proof.Laws

/-- The request word of `i` carries the operation code and the operand fields of `i`. -/
def CarriesFields.Statement (i : Instr) : Prop :=
  reqOp (encode i) = i.opcode ∧ reqX (encode i) = i.fieldX ∧ reqK (encode i) = i.fieldK

/-- What the four lemmas share: the fields of a packed request. -/
theorem carriesFields_of_pack (i : Instr) : CarriesFields.Statement i :=
  ⟨reqOp_packRequest _ _ _, reqX_packRequest _ _ _, reqK_packRequest _ _ _⟩

theorem CarriesFields.keyexp (x k : Word) : CarriesFields.Statement (.keyexp x k) := carriesFields_of_pack _
theorem CarriesFields.enc (x k : Word) : CarriesFields.Statement (.enc x k) := carriesFields_of_pack _
theorem CarriesFields.dec (x k : Word) : CarriesFields.Statement (.dec x k) := carriesFields_of_pack _
theorem CarriesFields.gfmul (u : BitVec 12) (a : Nibble) (v : BitVec 12) (b : Nibble) :
    CarriesFields.Statement (.gfmul u a v b) := carriesFields_of_pack _

end Sys2Proof.Laws
end

