-- ==== Sys2Proof/Tests/Slice0.lean ====
section
/-! SUPPORT. Tests: expected values from spec/95_test_vectors.md and the tables of spec/, never from this model; the
refusals of each well-formedness check; and for every obligation with hypotheses a state that meets them. -/

namespace Sys2Proof.Tests

open Sys2Proof.Machine

/-- The responses of a next state. -/
def responsesOf : Host.Outcome State Fault Refusal → Option (List Response)
  | .next s => some s.responses
  | .fault _ => none
  | .refused _ => none

/-! ### Decoding: words written out from the fields of 30_encoding.md R60 and R61 -/

/-- `op` = 00, `x` = 0xDEAD, `k` = 0x4AF5. -/
theorem test_decode_keyexp :
    decode 0b00_1101111010101101_0100101011110101#34 = .keyexp 0xDEAD 0x4AF5 := by decide

/-- `op` = 01, `x` = 0x1234, `k` = 0xABCD. -/
theorem test_decode_enc :
    decode 0b01_0001001000110100_1010101111001101#34 = .enc 0x1234 0xABCD := by decide

/-- `op` = 10, `x` = 0xAB86, `k` = 0xABCD. -/
theorem test_decode_dec :
    decode 0b10_1010101110000110_1010101111001101#34 = .dec 0xAB86 0xABCD := by decide

/-- `op` = 11, `x` = 0xFFF4, `k` = 0xABC9. -/
theorem test_decode_gfmul :
    decode 0b11_1111111111110100_1010101111001001#34 = .gfmul 0xFFF 0x4 0xABC 0x9 := by decide

/-- The encoder writes the request of 44_cipher_pipeline.md R151's worked example. -/
theorem test_encode_enc : encode (.enc 0x1234 0xABCD) = 0x11234ABCD#34 := by decide

/-- Both sides of the 34-bit boundary (30_encoding.md R66). -/
theorem test_boundary_edges :
    decodeTableWord 40 (2 ^ 34 - 1) = some (.gfmul 0xFFF 0xF 0xFFF 0xF) ∧ decodeTableWord 40 (2 ^ 34) = none := by
  decide

/-! ### The four operations on the state after reset (default tables) -/

/-- V-KS-3: `x` is ignored. -/
theorem test_keyexp : responsesOf (exec (.keyexp 0xDEAD 0x4AF5) State.reset) = some [0xDD2887AF#32] := by decide

/-- V-KS-2, the zero key. -/
theorem test_keyexp_zero : responsesOf (exec (.keyexp 0x0000 0x0000) State.reset) = some [0x19190D14#32] := by decide

/-- V-ENC-1. -/
theorem test_enc : responsesOf (exec (.enc 0x1234 0xABCD) State.reset) = some [0x0000AB86#32] := by decide

/-- V-ENC-10: round keys and column mix both matter. -/
theorem test_enc_one : responsesOf (exec (.enc 0x0001 0x0000) State.reset) = some [0x00003713#32] := by decide

/-- V-DEC-12: a ciphertext no ENC of the spec produced. -/
theorem test_dec : responsesOf (exec (.dec 0x1234 0xABCD) State.reset) = some [0x00000DE9#32] := by decide

/-- V-DEC-13: a key changed in one bit. -/
theorem test_dec_wrong_key : responsesOf (exec (.dec 0xAB86 0xABCC) State.reset) = some [0x00005615#32] := by decide

/-- V-GF-7, dirty upper bits. -/
theorem test_gfmul : responsesOf (exec (.gfmul 0xFFF 0x4 0xABC 0x9) State.reset) = some [0x00000002#32] := by decide

/-- V-GF-7, every iteration adds. -/
theorem test_gfmul_all : responsesOf (exec (.gfmul 0x000 0xF 0x000 0xF) State.reset) = some [0x0000000A#32] := by decide

/-- A placed word is what the next step performs: the request of V-ENC-3. -/
theorem test_step_placed_word :
    responsesOf (step (State.reset.withFetchWord 40 0x1D7284AF5)) = some [0x000024EC#32] := by decide

/-! ### The functions below the operations -/

/-- The complete product table of 40_gf_arithmetic.md R84: row `a` as 16 hexadecimal digits, column 0 leftmost. -/
def productRows : List (BitVec 64) :=
  [0x0000000000000000, 0x0123456789ABCDEF, 0x02468ACE3175B9FD, 0x0365CFA9B8DE7412,
   0x048C37BF62EA51D9, 0x05AF72D8EB419C36, 0x06CABD71539FE824, 0x07E9F816DA3425CB,
   0x083B6E5DC4F7A291, 0x09182B3A4D5C6F7E, 0x0A7DE493F5821B6C, 0x0B5EA1F47C29D683,
   0x0CB759E2A61DF348, 0x0D941C852FB63EA7, 0x0EF1D32C97684AB5, 0x0FD2964B1EC3875A]

theorem test_product_table :
    ∀ a b : Nibble, gfMul a b = ((productRows.getD a.toNat 0) >>> (60 - 4 * b.toNat)).setWidth 4 := by decide

/-- The default `mix_col_byte` in full (43_round_transforms.md R136): row the high nibble, 16 bytes a row. -/
def mixColRows : List (BitVec 128) :=
  [0x004182C33475B6F76829EAAB5C1DDE9F, 0x145596D72061A2E37C3DFEBF4809CA8B,
   0x2869AAEB1C5D9EDF4001C2837435F6B7, 0x3C7DBEFF08498ACB5415D6976021E2A3,
   0x4302C1807736F5B42B6AA9E81F5E9DDC, 0x5716D5946322E1A03F7EBDFC0B4A89C8,
   0x6B2AE9A85F1EDD9C034281C03776B5F4, 0x7F3EFDBC4B0AC988175695D42362A1E0,
   0x86C70445B2F33071EEAF6C2DDA9B5819, 0x92D31051A6E72465FABB7839CE8F4C0D,
   0xAEEF2C6D9ADB1859C6874405F2B37031, 0xBAFB38798ECF0C4DD2935011E6A76425,
   0xC5844706F1B07332ADEC2F6E99D81B5A, 0xD1905312E5A46726B9F83B7A8DCC0F4E,
   0xEDAC6F2ED9985B1A85C40746B1F03372, 0xF9B87B3ACD8C4F0E91D01352A5E42766]

/-- The default `inv_mix_col_byte` in full (43_round_transforms.md R136). -/
def invMixColRows : List (BitVec 128) :=
  [0x0029416882ABC3EA341D755CB69FF7DE, 0x92BBD3FA10395178A68FE7CE240D654C,
   0x143D557C96BFD7FE20096148A28BE3CA, 0x86AFC7EE042D456CB29BF3DA30197158,
   0x28016940AA83EBC21C355D749EB7DFF6, 0xBA93FBD2381179508EA7CFE60C254D64,
   0x3C157D54BE97FFD6082149608AA3CBE2, 0xAE87EFC62C056D449AB3DBF218315970,
   0x436A022BC1E880A9775E361FF5DCB49D, 0xD1F890B9537A123BE5CCA48D674E260F,
   0x577E163FD5FC94BD634A220BE1C8A089, 0xC5EC84AD476E062FF1D8B099735A321B,
   0x6B422A03E9C0A8815F761E37DDF49CB5, 0xF9D0B8917B523A13CDE48CA54F660E27,
   0x7F563E17FDD4BC954B620A23C9E088A1, 0xEDC4AC856F462E07D9F098B15B721A33]

/-- Entry (row, column) of such a table. -/
def rowEntry (rows : List (BitVec 128)) (h l : Nibble) : Byte :=
  ((rows.getD h.toNat 0) >>> (120 - 8 * l.toNat)).setWidth 8

theorem test_mix_col_table : ∀ h l : Nibble, mixColByte defaultConfig (packByte h l) = rowEntry mixColRows h l := by
  decide

theorem test_inv_mix_col_table :
    ∀ h l : Nibble, invMixColByte defaultConfig (packByte h l) = rowEntry invMixColRows h l := by decide

/-- V-SUB-3. -/
theorem test_sub_state :
    subState defaultConfig .forward 0x89AB = 0x6203 ∧ subState defaultConfig .inverse 0x89AB = 0x6023 := by decide

/-- V-KS-1 and V-KS-2: `rot_nib`, and `w4`, `w5` from `w3` (V-KS-X has the values from `w1`). -/
theorem test_key_words :
    rotNib 0xF5 = 0x5F ∧ (expandKey defaultConfig 0x4AF5).w4 = 0x87 ∧ (expandKey defaultConfig 0x4AF5).w5 = 0xAF := by
  decide

/-- V-SR-1. -/
theorem test_shift_rows : shiftRows 0x1234 = 0x1432 := by decide

/-- V-MC-1. -/
theorem test_mix_col :
    mixCol defaultConfig 0x6C40 = 0x3743 ∧ invMixCol defaultConfig 0x6C40 = 0x8A28 := by decide

/-- The square drawing of the default tables (41_substitution.md R102), row 2 of `INV_SBOX`. -/
theorem test_square :
    squareEntry defaultInvSbox 2 0 = 6 ∧ squareEntry defaultInvSbox 2 1 = 0 ∧ squareEntry defaultSbox 1 0 = 0xD := by
  decide

/-- V-GF-2, the values after the second iteration: the reduction has happened. -/
theorem test_multiplier_trace :
    runMul 2 (startMul 0x4 0x9) = { a := 0x3, b := 0x2, acc := 0x4, i := 2 } := by decide

/-- V-DEC-1, the State on leaving `D_InvRound2`. -/
theorem test_dec_stage :
    advance defaultConfig (.dec .dInvRound2 (expandKey defaultConfig 0xABCD) 0x5572) =
      .going (.dec .dInvRound1 (expandKey defaultConfig 0xABCD) 0x79F7) := by decide

/-- V-ENC-2, the State on leaving `E_Round1`. -/
theorem test_enc_stage :
    advance defaultConfig (.enc .eRound1 (expandKey defaultConfig 0x4AF5) 0xFB26) =
      .going (.enc .eRound2 (expandKey defaultConfig 0x4AF5) 0xCA45) := by decide

/-! ### Host programs (30_encoding.md R68) -/

/-- The second line of program P1, its request and its binding. -/
theorem test_line_enc :
    lineRequest [] (.enc (some 2) (.numeral 0x1234) (.numeral 0xABCD)) = some 0x11234ABCD#34 ∧
    (runLine (.enc (some 2) (.numeral 0x1234) (.numeral 0xABCD)) [] State.reset).map Prod.fst =
      some [(2, 0xAB86)] := by decide

/-- The first line of program P1: two bindings. -/
theorem test_line_keyexp :
    (runLine (.keyexp (some (0, 1)) (.numeral 0xABCD)) [] State.reset).map Prod.fst =
      some [(1, 0xFEF4), (0, 0xC70A)] := by decide

/-! ### The well-formedness checks refuse what is ill formed -/

/-- The first two entries of the inverse table exchanged. -/
theorem test_tables_check_refuses :
    ¬ ({ defaultConfig with
      invSbox := #v[0x5, 0xA, 9, 0xB, 1, 7, 8, 0xF, 6, 0, 2, 3, 0xC, 4, 0xD, 0xE] } : Config).TablesInverse := by
  decide

/-- Both matrices the forward one. -/
theorem test_mix_left_check_refuses : ¬ ({ defaultConfig with invMix := defaultMix } : Config).MixLeftInverse := by
  decide

/-- The zero matrix has no inverse. -/
theorem test_mix_right_check_refuses :
    ¬ ({ defaultConfig with mix := { m00 := 0, m01 := 0, m10 := 0, m11 := 0 } } : Config).MixRightInverse := by decide

/-- Dirty unused bits are legal but not in the written form. -/
theorem test_unused_bits_check_refuses :
    (Instr.keyexp 0xDEAD 0x4AF5).unusedBitsZero = false ∧ (Instr.gfmul 0xFFF 4 0 9).unusedBitsZero = false ∧
    (Instr.gfmul 0 4 0xABC 9).unusedBitsZero = false ∧ (Instr.gfmul 0 4 0 9).unusedBitsZero = true := by decide

/-- A name no earlier line bound. -/
theorem test_program_check_refuses_unbound :
    programWellFormed [] [.dec (some 1) (.name 0) (.numeral 0xABCD)] = false := by decide

/-- A GFMUL numeral of more than 4 bits. -/
theorem test_program_check_refuses_wide :
    programWellFormed [] [.gfmul none (.numeral 0x10) (.numeral 0x1)] = false := by decide

/-! ### Witnesses: every hypothesis of an obligation is met somewhere -/

/-- Two requests wait and nothing is in flight. -/
def waiting : State := { State.reset with requests := [0x11234ABCD#34, 0x300040009#34] }

/-- Two transactions are in flight before a waiting request. -/
def busy : State :=
  { State.reset with
    requests := [0x2AB86ABCD#34]
    inFlight := [.enc .eDone (expandKey defaultConfig 0xABCD) 0xAB86, .gfmul (startMul 4 9)] }

theorem witness_DecodeEncodeRoundTrip : (Instr.gfmul 0xFFF 0xF 0xFFF 0xF).wellFormed = true := by decide

theorem witness_BoundaryAdmitsExactly34Bits : 2 ^ 34 - 1 < 2 ^ 34 ∧ 2 ^ 34 ≤ 2 ^ 34 := by decide

theorem witness_StepPerformsOldestRequest :
    waiting.inFlight = [] ∧ waiting.requests = 0x11234ABCD#34 :: [0x300040009#34] := ⟨rfl, rfl⟩

theorem witness_PlacedWordIsPerformedNext : 0x3FFFFFFFF < 2 ^ 34 := by decide

theorem witness_IdleEngineStaysAsItIs : State.reset.isIdle = true := rfl

theorem witness_StepIsTheEngineFunction :
    waiting.inFlight = [] ∧ waiting.requests = 0x11234ABCD#34 :: [0x300040009#34] := ⟨rfl, rfl⟩

theorem witness_OperationsOnlyAppendOneResponse : ∃ t, exec (.keyexp 0 0) busy = .next t := ⟨_, rfl⟩

theorem witness_ResponseDependsOnRequestAndTablesOnly :
    ∃ s' t' r r', waiting.config = busy.config ∧ exec (.enc 1 2) waiting = .next s' ∧
      exec (.enc 1 2) busy = .next t' ∧ s'.responses = waiting.responses ++ [r] ∧
      t'.responses = busy.responses ++ [r'] := ⟨_, _, _, _, rfl, rfl, rfl, rfl, rfl⟩

theorem witness_TablesAreMutuallyInverseBijections : defaultConfig.TablesInverse := by decide

theorem witness_ByteSubstituteInverse : defaultConfig.TablesInverse := by decide

theorem witness_ColumnMixInverse : defaultConfig.MixLeftInverse ∧ defaultConfig.MixRightInverse := by decide

theorem witness_DecryptUndoesEncrypt :
    defaultConfig.WellFormed ∧ ∃ (t : State) (c : Word), exec (.enc 0x1234 0xABCD) State.reset = .next t ∧
      t.responses = State.reset.responses ++ [0#16 ++ c] := ⟨by decide, _, 0xAB86, rfl, by decide⟩

theorem witness_EncryptIsBijective : defaultConfig.WellFormed := by decide

/-- A configuration other than the default meets the constraints: both tables the identity, both matrices too. -/
theorem witness_other_configuration :
    ({ sbox := #v[0, 1, 2, 3, 4, 5, 6, 7, 8, 9, 10, 11, 12, 13, 14, 15]
       invSbox := #v[0, 1, 2, 3, 4, 5, 6, 7, 8, 9, 10, 11, 12, 13, 14, 15]
       mix := identityMatrix, invMix := identityMatrix } : Config).WellFormed := by decide

theorem witness_EncThenDecRespondsPlaintext :
    State.reset.config.WellFormed ∧ State.reset.inFlight = [] ∧ State.reset.requests = [] := by decide

theorem witness_EncStageTable :
    waiting.requests = (0b01#2 ++ 0x1234#16 ++ 0xABCD#16) :: [0x300040009#34] := by decide

theorem witness_DecStageTable : busy.requests = (0b10#2 ++ 0xAB86#16 ++ 0xABCD#16) :: [] := by decide

theorem witness_StageMachineEndsAsTheAtomicStep :
    waiting.inFlight = [] ∧ waiting.requests = 0x11234ABCD#34 :: [0x300040009#34] := ⟨rfl, rfl⟩

theorem witness_ResponsesInRequestOrder : waiting.inFlight = [] ∧ 2 ≤ waiting.requests.length := by decide

theorem witness_PromisedResponsesAreKept : ∃ t, step busy = .next t := ⟨_, rfl⟩

theorem witness_OneResponsePerRequest : ∃ t, step busy = .next t := ⟨_, rfl⟩

theorem witness_TablesNeverChange : ∃ t, step waiting = .next t := ⟨_, rfl⟩

theorem witness_StepKeepsInvariant : busy.Inv ∧ ∃ t, step busy = .next t := by
  refine ⟨⟨by decide, fun t ht => ?_⟩, _, rfl⟩
  rcases List.mem_cons.mp ht with rfl | ht
  · rfl
  · rcases List.mem_cons.mp ht with rfl | ht
    · trivial
    · cases ht

theorem witness_LinesLeaveUnusedBitsZero :
    lineRequest [(7, 0xFFF4)] (.gfmul none (.name 7) (.numeral 0x9)) = some 0x300040009#34 := by decide

theorem witness_WellFormedProgramsRunToTheEnd :
    State.reset.isIdle = true ∧
    programWellFormed (([] : Bindings).map Prod.fst)
      [.enc (some 0) (.numeral 0x1234) (.numeral 0xABCD), .dec (some 1) (.name 0) (.numeral 0xABCD)] = true := by decide

theorem witness_BoundCiphertextDecryptsToPlaintext :
    State.reset.isIdle = true ∧ State.reset.config.WellFormed := by decide

end Sys2Proof.Tests
end

/-! The decoder on a request word written as its fields, and the bits an operation does not use (30_encoding.md R60 to
R63). -/

namespace Sys2Proof.Proofs.Encoding

open Sys2Proof Sys2Proof.Machine

/-! ### The operation each value of `op` selects -/

/-- `op` = 00 (R61). -/
theorem decode_packRequest_keyexp (x k : Word) : decode (packRequest 0b00#2 x k) = .keyexp x k := by
  simp [decode, reqOp_packRequest, reqX_packRequest, reqK_packRequest]

/-- `op` = 01 (R61). -/
theorem decode_packRequest_enc (x k : Word) : decode (packRequest 0b01#2 x k) = .enc x k := by
  simp [decode, reqOp_packRequest, reqX_packRequest, reqK_packRequest]

/-- `op` = 10 (R61). -/
theorem decode_packRequest_dec (x k : Word) : decode (packRequest 0b10#2 x k) = .dec x k := by
  simp [decode, reqOp_packRequest, reqX_packRequest, reqK_packRequest]

/-- `op` = 11 (R61); the factors are the low nibbles of the two operand fields (R62). -/
theorem decode_packRequest_gfmul (x k : Word) :
    decode (packRequest 0b11#2 x k) =
      .gfmul (operandRest x) (operandNibble x) (operandRest k) (operandNibble k) := by
  simp [decode, reqOp_packRequest, reqX_packRequest, reqK_packRequest]

/-- Concatenation associates: five pieces in a row are the request with operand fields `{u, a}` and `{v, b}` (R60). -/
theorem append_pieces_eq_packRequest (op : BitVec 2) (u v : BitVec 12) (a b : Nibble) :
    (op ++ u ++ a ++ v ++ b : Request) = packRequest op (u ++ a) (v ++ b) := by
  grind [packRequest]

/-- GFMUL's word written as its pieces: each piece is found in the field of its name (R62, R63). -/
theorem decode_append_gfmul (u v : BitVec 12) (a b : Nibble) :
    decode (0b11#2 ++ u ++ a ++ v ++ b) = .gfmul u a v b :=
  calc decode (0b11#2 ++ u ++ a ++ v ++ b)
      = decode (packRequest 0b11#2 (u ++ a) (v ++ b)) := by rw [append_pieces_eq_packRequest]
    _ = .gfmul u a v b := by
      rw [decode_packRequest_gfmul, operandRest_append, operandNibble_append, operandRest_append, operandNibble_append]

/-- Settles O3: three of the words are `packRequest` itself, GFMUL's is regrouped into it. -/
theorem decodeSelectsByOperationCode : Obligations.DecodeSelectsByOperationCode :=
  ⟨decode_packRequest_keyexp, decode_packRequest_enc, decode_packRequest_dec, decode_append_gfmul⟩

/-! ### The bits an operation does not use -/

/-- KEYEXP's meaning does not read `x` (R63, R116). -/
theorem exec_keyexp_ignores_x (x x' k : Word) (s : State) : exec (.keyexp x k) s = exec (.keyexp x' k) s := rfl

/-- GFMUL's meaning does not read the upper 12 bits of either operand field (R63, R86). -/
theorem exec_gfmul_ignores_rest (u u' v v' : BitVec 12) (a b : Nibble) (s : State) :
    exec (.gfmul u a v b) s = exec (.gfmul u' a v' b) s := rfl

/-- Settles O15: the decoder puts the unused bits into operands of the instruction that its meaning does not read. -/
theorem unusedBitsAreIgnored : Obligations.UnusedBitsAreIgnored := by
  obtain ⟨decode_keyexp, -, -, decode_gfmul⟩ := decodeSelectsByOperationCode
  intro s
  constructor
  · intro x x' k
    rw [decode_keyexp, decode_keyexp]
    exact exec_keyexp_ignores_x x x' k s
  · intro u u' v v' a b
    rw [decode_gfmul, decode_gfmul]
    exact exec_gfmul_ignores_rest u u' v v' a b s

end Sys2Proof.Proofs.Encoding

/-! The multiplier of GF(2^4): what its loop accumulates, that this is the polynomial product reduced by `POLY`, its
laws, and the operation GFMUL (40_gf_arithmetic.md R80 to R86). -/

namespace Sys2Proof.Proofs.FieldArithmetic

open Sys2Proof Sys2Proof.Machine

/-! ### One partial product -/

/-- The partial product of a multiplier bit: the shifted factor when the bit is set, else nothing (R81). -/
def gate {w : Nat} (bit : Bool) (x : BitVec w) : BitVec w := if bit then x else 0

@[simp] theorem gate_true {w : Nat} (x : BitVec w) : gate true x = x := rfl
@[simp] theorem gate_false {w : Nat} (x : BitVec w) : gate false x = 0#w := rfl

/-- A partial product is additive in the bit. -/
theorem gate_xor_bit {w : Nat} (c d : Bool) (x : BitVec w) : gate (c ^^ d) x = gate c x ^^^ gate d x := by
  cases c <;> cases d <;> simp

theorem getLsbD_gate {w : Nat} (bit : Bool) (x : BitVec w) (i : Nat) :
    (gate bit x).getLsbD i = (bit && x.getLsbD i) := by
  cases bit <;> simp

/-! ### What the loop accumulates -/

/-- `b` after one iteration's right shift (R81). -/
def shiftOut (b : Nibble) : Nibble := 0#1 ++ b.extractLsb' 1 3

@[simp] theorem shiftOut_zero : shiftOut 0#4 = 0#4 := rfl
@[simp] theorem shiftOut_one : shiftOut 1#4 = 0#4 := rfl

theorem shiftOut_xor (b c : Nibble) : shiftOut (b ^^^ c) = shiftOut b ^^^ shiftOut c := by
  grind [shiftOut]

theorem getLsbD_shiftOut (b : Nibble) (i : Nat) : (shiftOut b).getLsbD i = b.getLsbD (i + 1) := by
  grind [shiftOut]

/-- The XOR of the partial products of the low `n` bits of `b`, the factor multiplied by x from one to the next. -/
def partialSum : Nat → Nibble → Nibble → Nibble
  | 0, _, _ => 0#4
  | n + 1, a, b => gate (b.getLsbD 0) a ^^^ partialSum n (shiftReduce a) (shiftOut b)

theorem iterateMul_acc (m : Multiplier) : (iterateMul m).acc = m.acc ^^^ gate (m.b.getLsbD 0) m.a := by
  unfold iterateMul
  cases m.b.getLsbD 0 <;> simp

/-- The loop's invariant: `n` iterations add the partial products of the next `n` bits to the accumulator. -/
theorem runMul_acc (n : Nat) (m : Multiplier) : (runMul n m).acc = m.acc ^^^ partialSum n m.a m.b := by
  induction n generalizing m with
  | zero => simp [runMul_zero, partialSum]
  | succ n ih =>
    calc (runMul (n + 1) m).acc
        = (iterateMul m).acc ^^^ partialSum n (shiftReduce m.a) (shiftOut m.b) := ih (iterateMul m)
      _ = m.acc ^^^ partialSum (n + 1) m.a m.b := by rw [iterateMul_acc, BitVec.xor_assoc, partialSum]

theorem gfMul_eq_partialSum (a b : Nibble) : gfMul a b = partialSum 4 a b := by
  simp [gfMul, gfIter, runMul_acc]

/-- The product as the XOR of its four partial products. -/
theorem gfMul_eq_xor_gates (a b : Nibble) :
    gfMul a b =
      gate (b.getLsbD 0) a ^^^ gate (b.getLsbD 1) (shiftReduce a) ^^^
      gate (b.getLsbD 2) (shiftReduce (shiftReduce a)) ^^^
      gate (b.getLsbD 3) (shiftReduce (shiftReduce (shiftReduce a))) := by
  simp only [gfMul_eq_partialSum, partialSum, getLsbD_shiftOut, BitVec.xor_assoc, BitVec.xor_zero]

/-! ### Polynomial product and reduction (R80) -/

/-- The seven coefficients of the product of two polynomials of degree at most 3. -/
def carrylessProduct (a b : Nibble) : BitVec 7 :=
  gate (b.getLsbD 0) (a.setWidth 7) ^^^ gate (b.getLsbD 1) (a.setWidth 7 <<< 1) ^^^
  gate (b.getLsbD 2) (a.setWidth 7 <<< 2) ^^^ gate (b.getLsbD 3) (a.setWidth 7 <<< 3)

/-- Reduction by x^4 + x + 1: x^4 = x + 1, x^5 = x^2 + x and x^6 = x^3 + x^2. -/
def reduce (p : BitVec 7) : Nibble :=
  p.extractLsb' 0 4 ^^^ gate (p.getLsbD 4) 0b0011#4 ^^^ gate (p.getLsbD 5) 0b0110#4 ^^^ gate (p.getLsbD 6) 0b1100#4

@[simp] theorem reduce_zero : reduce 0#7 = 0#4 := rfl

theorem reduce_xor (p q : BitVec 7) : reduce (p ^^^ q) = reduce p ^^^ reduce q := by
  simp only [reduce, BitVec.extractLsb'_xor, BitVec.getLsbD_xor, gate_xor_bit]
  ac_rfl

theorem reduce_gate (bit : Bool) (p : BitVec 7) : reduce (gate bit p) = gate bit (reduce p) := by
  cases bit <;> simp

/-- Shifting the polynomial and then reducing is multiplying by x in the field, for each shift the product needs. -/
theorem reduce_shiftLeft : ∀ a : Nibble,
    reduce (a.setWidth 7) = a ∧
    reduce (a.setWidth 7 <<< 1) = shiftReduce a ∧
    reduce (a.setWidth 7 <<< 2) = shiftReduce (shiftReduce a) ∧
    reduce (a.setWidth 7 <<< 3) = shiftReduce (shiftReduce (shiftReduce a)) := by decide

/-- Reduction is additive, so reducing the product reduces each partial product. -/
theorem gfMul_eq_reduce (a b : Nibble) : gfMul a b = reduce (carrylessProduct a b) := by
  obtain ⟨h0, h1, h2, h3⟩ := reduce_shiftLeft a
  simp only [carrylessProduct, reduce_xor, reduce_gate, h0, h1, h2, h3]
  exact gfMul_eq_xor_gates a b

/-- Settles O18: `gate`, `carrylessProduct` and `reduce` only name the parts of the obligation's formula. -/
theorem gfMulIsPolynomialProduct : Obligations.GfMulIsPolynomialProduct :=
  ⟨rfl, gfMul_eq_reduce⟩

/-! ### The laws of the multiplier (R83) -/

/-- Coefficient `i` of the product is the sum of the `a_j b_k` with `j + k = i`, which is symmetric. -/
theorem carrylessProduct_comm (a b : Nibble) : carrylessProduct a b = carrylessProduct b a := by
  ext i hi
  simp only [carrylessProduct, ← BitVec.getLsbD_eq_getElem, BitVec.getLsbD_xor, getLsbD_gate]
  interval_cases i <;> grind

theorem gfMul_comm (a b : Nibble) : gfMul a b = gfMul b a := by
  rw [gfMul_eq_reduce, carrylessProduct_comm, ← gfMul_eq_reduce]

theorem partialSum_xor_right (n : Nat) (a b c : Nibble) :
    partialSum n a (b ^^^ c) = partialSum n a b ^^^ partialSum n a c := by
  induction n generalizing a b c with
  | zero => simp [partialSum]
  | succ n ih =>
    simp only [partialSum, BitVec.getLsbD_xor, gate_xor_bit, shiftOut_xor, ih]
    ac_rfl

theorem gfMul_xor_right (a b c : Nibble) : gfMul a (b ^^^ c) = gfMul a b ^^^ gfMul a c := by
  simp only [gfMul_eq_partialSum, partialSum_xor_right]

theorem partialSum_zero_right (n : Nat) (a : Nibble) : partialSum n a 0#4 = 0#4 := by
  induction n generalizing a with
  | zero => rfl
  | succ n ih => simp [partialSum, ih]

@[simp] theorem gfMul_zero_right (a : Nibble) : gfMul a 0#4 = 0#4 := by
  rw [gfMul_eq_partialSum, partialSum_zero_right]

@[simp] theorem gfMul_zero_left (b : Nibble) : gfMul 0#4 b = 0#4 := by
  rw [gfMul_comm, gfMul_zero_right]

/-- Only the first iteration adds: the right shift leaves no bit of 1. -/
@[simp] theorem gfMul_one_right (a : Nibble) : gfMul a 1#4 = a := by
  rw [gfMul_eq_partialSum, partialSum, shiftOut_one, partialSum_zero_right]
  simp

/-- Settles O19; the closure is the result's width. -/
theorem gfMulLaws : Obligations.GfMulLaws :=
  ⟨gfMul_comm, gfMul_xor_right, fun a => ⟨gfMul_zero_right a, gfMul_one_right a⟩,
    fun a b => Nat.le_of_lt_succ (gfMul a b).isLt⟩

/-! ### GFMUL (R86) -/

/-- A nibble zero-extended twice, to the response's low half and to the whole response (R64, R86). -/
theorem packResponse_zextNibble (p : Nibble) : packResponse 0 (zextNibble p) = 0#28 ++ p := by
  grind [packResponse, zextNibble]

/-- GFMUL's outcome and with it its frame: one response more, nothing else. -/
theorem exec_gfmul (u v : BitVec 12) (a b : Nibble) (s : State) :
    exec (.gfmul u a v b) s = .next { s with responses := s.responses ++ [0#28 ++ gfMul a b] } := by
  rw [← packResponse_zextNibble]
  rfl

/-- Settles O14: the corner cases are the field's laws in the one response. -/
theorem gfmulResponds : Obligations.GfmulResponds := by
  intro u v a b s
  refine ⟨exec_gfmul u v a b s, ?factor_a_zero, ?factor_b_zero, ?factor_b_one, ?exchanged⟩
  case factor_a_zero => simp [exec_gfmul]
  case factor_b_zero => simp [exec_gfmul]
  case factor_b_one => simp [exec_gfmul]
  case exchanged => rw [exec_gfmul, exec_gfmul, gfMul_comm]

end Sys2Proof.Proofs.FieldArithmetic

/-! The substitution functions: which table a selector reads, and that each nibble is looked up in its place
(41_substitution.md R99 to R101). -/

namespace Sys2Proof.Proofs.Substitution

open Sys2Proof Sys2Proof.Machine

/-- R99, `Forward`. -/
theorem subNib_forward (cfg : Config) (n : Nibble) : subNib cfg .forward n = tabRead cfg.sbox n := rfl

/-- R99, `Inverse`. -/
theorem subNib_inverse (cfg : Config) (n : Nibble) : subNib cfg .inverse n = tabRead cfg.invSbox n := rfl

/-- R100 on the byte's bit slices: `hiNibble` and `loNibble` cut where `packByte` joins. -/
theorem subByte_eq_append (cfg : Config) (sel : Selector) (b : Byte) :
    subByte cfg sel b = subNib cfg sel (b.extractLsb' 4 4) ++ subNib cfg sel (b.extractLsb' 0 4) := rfl

/-- R101 on the State's bit slices: `nib0` to `nib3` cut where `packNibbles` joins. -/
theorem subState_eq_append (cfg : Config) (sel : Selector) (s : Word) :
    subState cfg sel s = subNib cfg sel (s.extractLsb' 12 4) ++ subNib cfg sel (s.extractLsb' 8 4) ++
      subNib cfg sel (s.extractLsb' 4 4) ++ subNib cfg sel (s.extractLsb' 0 4) := rfl

/-- Settles O21: one equation per selector for a nibble, then one for a byte and one for a State under any selector. -/
theorem substitutionIsNibblewise : Obligations.SubstitutionIsNibblewise :=
  fun cfg => ⟨fun n => ⟨subNib_forward cfg n, subNib_inverse cfg n⟩, subByte_eq_append cfg, subState_eq_append cfg⟩

end Sys2Proof.Proofs.Substitution

/-! The key schedule: the nibble rotation, what each named value is computed from, and the operation KEYEXP
(42_key_schedule.md R110 to R116). -/

namespace Sys2Proof.Proofs.KeySchedule

open Sys2Proof Sys2Proof.Machine

/-! ### The nibble rotation (R111) -/

/-- R111 on the byte's bit slices. -/
theorem rotNib_eq_append (b : Byte) : rotNib b = b.extractLsb' 0 4 ++ b.extractLsb' 4 4 := rfl

@[simp] theorem hiNibble_rotNib (b : Byte) : hiNibble (rotNib b) = loNibble b := hiNibble_packByte _ _
@[simp] theorem loNibble_rotNib (b : Byte) : loNibble (rotNib b) = hiNibble b := loNibble_packByte _ _

/-- Each nibble is swapped out of its place and back into it. -/
@[simp] theorem rotNib_rotNib (b : Byte) : rotNib (rotNib b) = b :=
  calc rotNib (rotNib b)
      = packByte (loNibble (rotNib b)) (hiNibble (rotNib b)) := rfl
    _ = packByte (hiNibble b) (loNibble b) := by rw [loNibble_rotNib, hiNibble_rotNib]
    _ = b := packByte_nibbles b

/-- Settles O24: the swap on bit slices, and the swap undone. -/
theorem rotNibSwapsNibbles : Obligations.RotNibSwapsNibbles :=
  fun b => ⟨rotNib_eq_append b, rotNib_rotNib b⟩

/-! ### The named values (R112 to R115) -/

section
variable (cfg : Config) (key : Word)

theorem expandKey_w0 : (expandKey cfg key).w0 = key.extractLsb' 8 8 := rfl

theorem expandKey_w1 : (expandKey cfg key).w1 = key.extractLsb' 0 8 := rfl

/-- R113: round 1 rotates `w1`. -/
theorem expandKey_w2 :
    (expandKey cfg key).w2 =
      (expandKey cfg key).w0 ^^^ 0x80#8 ^^^ subByte cfg .forward (rotNib (expandKey cfg key).w1) := rfl

theorem expandKey_w3 : (expandKey cfg key).w3 = (expandKey cfg key).w2 ^^^ (expandKey cfg key).w1 := rfl

/-- R114: round 2 rotates `w3`, the word just produced. -/
theorem expandKey_w4 :
    (expandKey cfg key).w4 =
      (expandKey cfg key).w2 ^^^ 0x30#8 ^^^ subByte cfg .forward (rotNib (expandKey cfg key).w3) := rfl

theorem expandKey_w5 : (expandKey cfg key).w5 = (expandKey cfg key).w4 ^^^ (expandKey cfg key).w3 := rfl

theorem expandKey_rk1 : (expandKey cfg key).rk1 = (expandKey cfg key).w2 ++ (expandKey cfg key).w3 := rfl

theorem expandKey_rk2 : (expandKey cfg key).rk2 = (expandKey cfg key).w4 ++ (expandKey cfg key).w5 := rfl

theorem keyExpansion_eq : keyExpansion cfg key = ((expandKey cfg key).rk1, (expandKey cfg key).rk2) := rfl

end

/-- The shift is taken in 16 bits and the two bytes do not overlap, so OR and concatenation are the same (R115). -/
theorem append_eq_shiftLeft_or (upper lower : Byte) :
    (upper ++ lower : Word) = (upper.setWidth 16 <<< 8) ||| lower.setWidth 16 := by
  grind

/-- Settles O25: the definition's own equations, the two concatenations turned into the source's shift and OR. -/
theorem keyScheduleValues : Obligations.KeyScheduleValues := by
  intro cfg key ks
  have rk1_eq : ks.rk1 = (ks.w2.setWidth 16 <<< 8) ||| ks.w3.setWidth 16 :=
    (expandKey_rk1 cfg key).trans (append_eq_shiftLeft_or _ _)
  have rk2_eq : ks.rk2 = (ks.w4.setWidth 16 <<< 8) ||| ks.w5.setWidth 16 :=
    (expandKey_rk2 cfg key).trans (append_eq_shiftLeft_or _ _)
  exact ⟨expandKey_w0 cfg key, expandKey_w1 cfg key, expandKey_w2 cfg key, expandKey_w3 cfg key,
    expandKey_w4 cfg key, expandKey_w5 cfg key, rk1_eq, rk2_eq, keyExpansion_eq cfg key⟩

/-! ### KEYEXP (R116) -/

/-- KEYEXP's outcome and with it its frame: one response more, the two round keys of `k`, and nothing else. -/
theorem exec_keyexp (x k : Word) (s : State) :
    exec (.keyexp x k) s =
      .next { s with responses := s.responses ++ [(expandKey s.config k).rk1 ++ (expandKey s.config k).rk2] } := rfl

/-- Settles O11: the response's round keys, each word replaced by what the schedule computes it from. -/
theorem keyexpResponds : Obligations.KeyexpResponds := by
  intro x k s
  rw [exec_keyexp, expandKey_rk1, expandKey_rk2, expandKey_w5, expandKey_w4, expandKey_w3, expandKey_w2,
    expandKey_w1, expandKey_w0]

end Sys2Proof.Proofs.KeySchedule

/-! The round transforms on the State: ByteSubstitute and its inverse, KeyMix, ShiftRows, ColumnMix and its inverse
(43_round_transforms.md R126 to R131). -/

namespace Sys2Proof.Proofs.RoundTransforms

open Sys2Proof Sys2Proof.Machine
open Sys2Proof.Proofs.Substitution

/-! ### ByteSubstitute and InverseByteSubstitute (R127, R128) -/

theorem byteSub_eq_subState (cfg : Config) (s : Word) : byteSub cfg s = subState cfg .forward s := rfl

theorem invByteSub_eq_subState (cfg : Config) (s : Word) : invByteSub cfg s = subState cfg .inverse s := rfl

/-- The identity that the hypothesis on the tables states (R96). -/
theorem subNib_inverse_forward {cfg : Config} (h : cfg.TablesInverse) (n : Nibble) :
    subNib cfg .inverse (subNib cfg .forward n) = n := by
  rw [subNib_forward, subNib_inverse]
  exact h n

/-- The other order: on a finite set a left inverse is also a right inverse (R96). -/
theorem subNib_forward_inverse {cfg : Config} (h : cfg.TablesInverse) (n : Nibble) :
    subNib cfg .forward (subNib cfg .inverse n) = n := by
  have left_inverse : Function.LeftInverse (subNib cfg .inverse) (subNib cfg .forward) :=
    subNib_inverse_forward h
  exact left_inverse.rightInverse_of_card_le le_rfl n

/-- The four lanes are independent, so a substitution that undoes another on every nibble does so on every State. -/
theorem subState_subState_of_subNib {cfg : Config} {sel sel' : Selector}
    (h : ∀ n : Nibble, subNib cfg sel' (subNib cfg sel n) = n) (s : Word) :
    subState cfg sel' (subState cfg sel s) = s :=
  calc subState cfg sel' (subState cfg sel s)
      = packNibbles (subNib cfg sel' (subNib cfg sel (nib0 s))) (subNib cfg sel' (subNib cfg sel (nib1 s)))
          (subNib cfg sel' (subNib cfg sel (nib2 s))) (subNib cfg sel' (subNib cfg sel (nib3 s))) := by
        simp only [subState, nib0_packNibbles, nib1_packNibbles, nib2_packNibbles, nib3_packNibbles]
    _ = packNibbles (nib0 s) (nib1 s) (nib2 s) (nib3 s) := by simp only [h]
    _ = s := packNibbles_nibs s

theorem invByteSub_byteSub {cfg : Config} (h : cfg.TablesInverse) (s : Word) :
    invByteSub cfg (byteSub cfg s) = s :=
  subState_subState_of_subNib (subNib_inverse_forward h) s

theorem byteSub_invByteSub {cfg : Config} (h : cfg.TablesInverse) (s : Word) :
    byteSub cfg (invByteSub cfg s) = s :=
  subState_subState_of_subNib (subNib_forward_inverse h) s

/-- Settles O23: the two orders of R96 on a nibble, each carried to the State lane by lane. -/
theorem byteSubstituteInverse : Obligations.ByteSubstituteInverse :=
  fun cfg h s => ⟨byteSub_eq_subState cfg s, invByteSub_eq_subState cfg s, invByteSub_byteSub h s,
    byteSub_invByteSub h s⟩

/-! ### KeyMix (R126) -/

theorem keyMix_eq_xor (s rk : Word) : keyMix s rk = s ^^^ rk := rfl

/-- The key cancels against itself. -/
@[simp] theorem keyMix_keyMix (s rk : Word) : keyMix (keyMix s rk) rk = s :=
  calc keyMix (keyMix s rk) rk
      = s ^^^ (rk ^^^ rk) := by rw [keyMix_eq_xor, keyMix_eq_xor, BitVec.xor_assoc]
    _ = s := by rw [BitVec.xor_self, BitVec.xor_zero]

/-- Settles O26. -/
theorem keyMixIsSelfInverse : Obligations.KeyMixIsSelfInverse :=
  fun s rk => ⟨keyMix_eq_xor s rk, keyMix_keyMix s rk⟩

/-! ### ShiftRows (R129) -/

/-- R129 on the State's bit slices: the second and the fourth change places. -/
theorem shiftRows_eq_append (s : Word) :
    shiftRows s = s.extractLsb' 12 4 ++ s.extractLsb' 0 4 ++ s.extractLsb' 4 4 ++ s.extractLsb' 8 4 := rfl

@[simp] theorem nib0_shiftRows (s : Word) : nib0 (shiftRows s) = nib0 s := nib0_packNibbles _ _ _ _
@[simp] theorem nib1_shiftRows (s : Word) : nib1 (shiftRows s) = nib3 s := nib1_packNibbles _ _ _ _
@[simp] theorem nib2_shiftRows (s : Word) : nib2 (shiftRows s) = nib2 s := nib2_packNibbles _ _ _ _
@[simp] theorem nib3_shiftRows (s : Word) : nib3 (shiftRows s) = nib1 s := nib3_packNibbles _ _ _ _

/-- The two nibbles of row 1 are swapped and swapped back. -/
@[simp] theorem shiftRows_shiftRows (s : Word) : shiftRows (shiftRows s) = s :=
  calc shiftRows (shiftRows s)
      = packNibbles (nib0 (shiftRows s)) (nib3 (shiftRows s)) (nib2 (shiftRows s)) (nib1 (shiftRows s)) := rfl
    _ = packNibbles (nib0 s) (nib1 s) (nib2 s) (nib3 s) := by
        rw [nib0_shiftRows, nib1_shiftRows, nib2_shiftRows, nib3_shiftRows]
    _ = s := packNibbles_nibs s

/-- Settles O27: the swap on bit slices, and the swap undone. -/
theorem shiftRowsSwapsRowOne : Obligations.ShiftRowsSwapsRowOne :=
  fun s => ⟨shiftRows_eq_append s, shiftRows_shiftRows s⟩

/-! ### ColumnMix and InverseColumnMix (R130, R131) -/

/-- R130 on the column's bit slices: the high nibble is the vector's first entry. -/
theorem matCol_eq_append (m : MixMatrix) (c : Byte) :
    matCol m c = (gfMul m.m00 (c.extractLsb' 4 4) ^^^ gfMul m.m01 (c.extractLsb' 0 4)) ++
      (gfMul m.m10 (c.extractLsb' 4 4) ^^^ gfMul m.m11 (c.extractLsb' 0 4)) := rfl

theorem mixColByte_eq_matCol (cfg : Config) (c : Byte) : mixColByte cfg c = matCol cfg.mix c := rfl

theorem invMixColByte_eq_matCol (cfg : Config) (c : Byte) : invMixColByte cfg c = matCol cfg.invMix c := rfl

/-- R131 on the State's bit slices: each column's result depends on that column alone. -/
theorem mixCol_eq_append (cfg : Config) (s : Word) :
    mixCol cfg s = mixColByte cfg (s.extractLsb' 8 8) ++ mixColByte cfg (s.extractLsb' 0 8) := rfl

/-- R131's inverse, column by column as well. -/
theorem invMixCol_eq_append (cfg : Config) (s : Word) :
    invMixCol cfg s = invMixColByte cfg (s.extractLsb' 8 8) ++ invMixColByte cfg (s.extractLsb' 0 8) := rfl

/-- Settles O28: the equation of one column under any matrix, the two matrices, and the two lanes. -/
theorem columnMixIsMatrixTimesColumn : Obligations.ColumnMixIsMatrixTimesColumn :=
  fun cfg s m c => ⟨matCol_eq_append m c, mixColByte_eq_matCol cfg c, invMixColByte_eq_matCol cfg c,
    mixCol_eq_append cfg s, invMixCol_eq_append cfg s⟩

end Sys2Proof.Proofs.RoundTransforms

/-! The cipher pipeline: why decryption undoes encryption, as functions and in requests, and the operations ENC and DEC
(44_cipher_pipeline.md R150 to R153, R160, R161). The one inverse the chain of R161 needs beyond the round transforms'
own is InverseColumnMix after ColumnMix, which rests on the multiplier's associativity (43_round_transforms.md R132). -/

namespace Sys2Proof.Proofs.CipherPipeline

open Sys2Proof Sys2Proof.Machine
open Sys2Proof.Proofs.FieldArithmetic Sys2Proof.Proofs.RoundTransforms

/-! ### The multiplier is associative -/

theorem shiftReduce_zero : shiftReduce 0#4 = 0#4 := by decide

theorem shiftReduce_gate (bit : Bool) (a : Nibble) : shiftReduce (gate bit a) = gate bit (shiftReduce a) := by
  cases bit
  · exact shiftReduce_zero
  · rfl

theorem gfMul_gate_right (a : Nibble) (bit : Bool) (b : Nibble) : gfMul a (gate bit b) = gate bit (gfMul a b) := by
  cases bit
  · exact gfMul_zero_right a
  · rfl

theorem gfMul_xor_left (a b c : Nibble) : gfMul (a ^^^ b) c = gfMul a c ^^^ gfMul b c := by
  rw [gfMul_comm, gfMul_xor_right, gfMul_comm c a, gfMul_comm c b]

theorem gfMul_one_left (b : Nibble) : gfMul 1#4 b = b := by
  rw [gfMul_comm, gfMul_one_right]

theorem partialSum_shiftReduce (n : Nat) (a b : Nibble) :
    partialSum n (shiftReduce a) b = shiftReduce (partialSum n a b) := by
  induction n generalizing a b with
  | zero => exact shiftReduce_zero.symm
  | succ n ih => rw [partialSum, partialSum, ih, shiftReduce_xor, shiftReduce_gate]

/-- A factor x moves out of the second factor as well. -/
theorem gfMul_shiftReduce_right (a b : Nibble) : gfMul a (shiftReduce b) = shiftReduce (gfMul a b) := by
  rw [gfMul_comm, gfMul_eq_partialSum, partialSum_shiftReduce, ← gfMul_eq_partialSum, gfMul_comm]

/-- Multiplying by `a` commutes with every iteration of the loop, so it may be done before the loop. -/
theorem gfMul_partialSum (n : Nat) (a b c : Nibble) : gfMul a (partialSum n b c) = partialSum n (gfMul a b) c := by
  induction n generalizing b c with
  | zero => exact gfMul_zero_right a
  | succ n ih => rw [partialSum, partialSum, gfMul_xor_right, gfMul_gate_right, ih, gfMul_shiftReduce_right]

theorem gfMul_assoc (a b c : Nibble) : gfMul (gfMul a b) c = gfMul a (gfMul b c) := by
  rw [gfMul_eq_partialSum (gfMul a b) c, gfMul_eq_partialSum b c, gfMul_partialSum]

/-! ### One matrix after another (R130, R132) -/

/-- A matrix applied to a column already multiplied by another is their product applied to the column. -/
theorem matCol_matCol (m n : MixMatrix) (c : Byte) : matCol m (matCol n c) = matCol (matMul m n) c := by
  simp only [matCol, matMul, hiNibble_packByte, loNibble_packByte, gfMul_xor_right, gfMul_xor_left, gfMul_assoc]
  ac_rfl

theorem matCol_identityMatrix (c : Byte) : matCol identityMatrix c = c := by
  simp [matCol, identityMatrix, gfMul_one_left, packByte_nibbles]

/-- The two column lanes are independent, so the inverse matrix undoes the mixing on every State. -/
theorem invMixCol_mixCol {cfg : Config} (h : cfg.MixLeftInverse) (s : Word) : invMixCol cfg (mixCol cfg s) = s := by
  have lane (c : Byte) : invMixColByte cfg (mixColByte cfg c) = c := by
    rw [invMixColByte_eq_matCol, mixColByte_eq_matCol, matCol_matCol, h, matCol_identityMatrix]
  rw [invMixCol, mixCol, upperByte_packBytes, lowerByte_packBytes, lane, lane, packBytes_bytes]

/-! ### The two pipelines as chains of transforms (R150, R152) -/

theorem encrypt_eq (cfg : Config) (p k : Word) :
    encrypt cfg p k =
      keyMix (shiftRows (byteSub cfg
        (keyMix (mixCol cfg (shiftRows (byteSub cfg (keyMix p k)))) (keyExpansion cfg k).1)))
        (keyExpansion cfg k).2 := rfl

theorem decrypt_eq (cfg : Config) (c k : Word) :
    decrypt cfg c k =
      keyMix (invByteSub cfg (shiftRows (invMixCol cfg
        (keyMix (invByteSub cfg (shiftRows (keyMix c (keyExpansion cfg k).2))) (keyExpansion cfg k).1)))) k := rfl

/-- R161: each transform of decryption meets the transform of encryption that it undoes, from the last to the first. -/
theorem decrypt_encrypt {cfg : Config} (h : cfg.WellFormed) (p k : Word) : decrypt cfg (encrypt cfg p k) k = p := by
  obtain ⟨tables, mixLeft, -⟩ := h
  rw [decrypt_eq, encrypt_eq,
    keyMix_keyMix, shiftRows_shiftRows, invByteSub_byteSub tables,
    keyMix_keyMix, invMixCol_mixCol mixLeft, shiftRows_shiftRows, invByteSub_byteSub tables,
    keyMix_keyMix]

/-! ### ENC and DEC (R151, R153) -/

/-- ENC's outcome and with it its frame: one response more, the ciphertext zero-extended, and nothing else. -/
theorem exec_enc (x k : Word) (s : State) :
    exec (.enc x k) s = .next { s with responses := s.responses ++ [0#16 ++ encrypt s.config x k] } := rfl

/-- DEC's outcome and with it its frame: one response more, the plaintext zero-extended, and nothing else. -/
theorem exec_dec (x k : Word) (s : State) :
    exec (.dec x k) s = .next { s with responses := s.responses ++ [0#16 ++ decrypt s.config x k] } := rfl

/-- Settles O12: the pipeline's chain with each KeyMix written as the XOR of R150's one expression. -/
theorem encResponds : Obligations.EncResponds := by
  intro x k s rk1 rk2
  rw [exec_enc, encrypt_eq]
  simp only [keyMix_eq_xor, rk1, rk2]

/-- Settles O13: the inverse chain, each KeyMix again written as an XOR. -/
theorem decResponds : Obligations.DecResponds := by
  intro x k s rk1 rk2
  rw [exec_dec, decrypt_eq]
  simp only [keyMix_eq_xor, rk1, rk2]

/-! ### The round-trip law in requests (R160) -/

/-- The low half of a response is the block it carries. -/
theorem zero_append_injective {c d : Word} (h : (0#16 ++ c : Response) = 0#16 ++ d) : c = d :=
  calc c = rspLo (0#16 ++ c) := (rspLo_packResponse 0#16 c).symm
    _ = rspLo (0#16 ++ d) := congrArg rspLo h
    _ = d := rspLo_packResponse 0#16 d

/-- What ENC can have done when it responded `c`: the tables are as they were and `c` is the encryption. -/
theorem config_and_block_of_exec_enc {s t : State} {p k c : Word} (henc : exec (.enc p k) s = .next t)
    (hresp : t.responses = s.responses ++ [0#16 ++ c]) : t.config = s.config ∧ c = encrypt s.config p k := by
  rw [exec_enc] at henc
  cases henc
  have same_response := List.singleton_inj.mp (List.append_cancel_left hresp)
  exact ⟨rfl, (zero_append_injective same_response).symm⟩

/-- Settles O31: the law on functions; in requests, ENC hands DEC the ciphertext and unchanged tables. -/
theorem decryptUndoesEncrypt : Obligations.DecryptUndoesEncrypt := by
  refine ⟨fun cfg h p k => decrypt_encrypt h p k, ?in_requests⟩
  intro s t p k c h henc hresp
  obtain ⟨hconfig, hblock⟩ := config_and_block_of_exec_enc henc hresp
  rw [exec_dec, hconfig, hblock, decrypt_encrypt h]

end Sys2Proof.Proofs.CipherPipeline

/-! Nothing faults or refuses: every operation and every step answers a next state (60_exceptions.md R175). -/

namespace Sys2Proof.Proofs.Exceptions

open Sys2Proof Sys2Proof.Machine Sys2Proof.Proofs.KeySchedule Sys2Proof.Proofs.CipherPipeline
  Sys2Proof.Proofs.FieldArithmetic

/-- Each operation's outcome (R86, R116, R151, R153) is a next state. -/
theorem exec_answers_next (i : Instr) (s : State) : ∃ t, exec i s = .next t := by
  cases i with
  | keyexp x k => exact ⟨_, exec_keyexp x k s⟩
  | enc x k => exact ⟨_, exec_enc x k s⟩
  | dec x k => exact ⟨_, exec_dec x k s⟩
  | gfmul u a v b => exact ⟨_, exec_gfmul u v a b s⟩

/-- A step goes on with a transaction, performs the oldest request, or is idle; only the second rests on `exec`. -/
theorem step_answers_next (s : State) : ∃ t, step s = .next t := by
  rcases step_eq s with ⟨t, others, -, continues⟩ | ⟨r, rest, -, -, performs⟩ | ⟨-, -, idles⟩
  · exact ⟨continueTransaction t others s, continues⟩
  · rw [performs]
    exact exec_answers_next (decode r) { s with requests := rest }
  · exact ⟨s, idles⟩

/-- Settles O9: `exec` arm by arm, `step` by the three things it can be. -/
theorem nothingFaultsOrRefuses : Obligations.NothingFaultsOrRefuses :=
  ⟨exec_answers_next, step_answers_next⟩

end Sys2Proof.Proofs.Exceptions

/-! Decoding and encoding undo each other, and the boundary in front of the decoder (30_encoding.md R60 to R66). -/

namespace Sys2Proof.Proofs.RoundTrips

open Sys2Proof Sys2Proof.Machine
open Sys2Proof.Proofs.Encoding

/-! ### What each value of a word's operation code decodes to (R61, R62) -/

section
variable {r : Request}

theorem decode_of_reqOp_keyexp (h : reqOp r = 0b00#2) : decode r = .keyexp (reqX r) (reqK r) := by
  simp [decode, h]

theorem decode_of_reqOp_enc (h : reqOp r = 0b01#2) : decode r = .enc (reqX r) (reqK r) := by
  simp [decode, h]

theorem decode_of_reqOp_dec (h : reqOp r = 0b10#2) : decode r = .dec (reqX r) (reqK r) := by
  simp [decode, h]

theorem decode_of_reqOp_gfmul (h : reqOp r = 0b11#2) :
    decode r =
      .gfmul (operandRest (reqX r)) (operandNibble (reqX r)) (operandRest (reqK r)) (operandNibble (reqK r)) := by
  simp [decode, h]

end

/-- One of the four equations above applies to every request word. -/
theorem opcode_cases : ∀ op : BitVec 2, op = 0b00#2 ∨ op = 0b01#2 ∨ op = 0b10#2 ∨ op = 0b11#2 := by decide

/-- Whatever its operation code, a word decodes to an operation that has the word's code and fields. -/
theorem decode_fields (r : Request) :
    (decode r).opcode = reqOp r ∧ (decode r).fieldX = reqX r ∧ (decode r).fieldK = reqK r := by
  rcases opcode_cases (reqOp r) with h | h | h | h
  · rw [decode_of_reqOp_keyexp h, h]; exact ⟨rfl, rfl, rfl⟩
  · rw [decode_of_reqOp_enc h, h]; exact ⟨rfl, rfl, rfl⟩
  · rw [decode_of_reqOp_dec h, h]; exact ⟨rfl, rfl, rfl⟩
  · rw [decode_of_reqOp_gfmul h, h]; exact ⟨rfl, append_operandParts _, append_operandParts _⟩

/-! ### The round trips -/

/-- Settles O1: the encoder writes a packed request, whose decoding is known for each operation code. -/
theorem decodeEncodeRoundTrip : Obligations.DecodeEncodeRoundTrip := by
  intro i _
  cases i with
  | keyexp x k => exact decode_packRequest_keyexp x k
  | enc x k => exact decode_packRequest_enc x k
  | dec x k => exact decode_packRequest_dec x k
  | gfmul u a v b =>
    calc decode (encode (.gfmul u a v b))
        = decode (packRequest 0b11#2 (u ++ a) (v ++ b)) := rfl
      _ = .gfmul u a v b := by rw [← append_pieces_eq_packRequest, decode_append_gfmul]

/-- Settles O2: the decoded operation's code and fields are packed again as they were. -/
theorem encodeDecodeRoundTrip : Obligations.EncodeDecodeRoundTrip := by
  intro r
  obtain ⟨hop, hx, hk⟩ := decode_fields r
  rw [encode, hop, hx, hk, packRequest_fields]

/-- Settles O4: each word is a literal, on which the decoder is evaluated. -/
theorem writtenWordsDecode : Obligations.WrittenWordsDecode := by
  unfold Obligations.WrittenWordsDecode
  decide

/-! ### The boundary (R66) -/

theorem decodeTableWord_of_lt (nbits : Nat) {w : Nat} (h : w < 2 ^ 34) :
    decodeTableWord nbits w = some (decode (BitVec.ofNat 34 w)) := by
  rw [decodeTableWord, boundaryWord_of_lt h]

theorem decodeTableWord_of_le (nbits : Nat) {w : Nat} (h : 2 ^ 34 ≤ w) : decodeTableWord nbits w = none := by
  rw [decodeTableWord, boundaryWord_of_le h]

/-- Settles O5: a number is decoded exactly when the boundary admits it. -/
theorem boundaryAdmitsExactly34Bits : Obligations.BoundaryAdmitsExactly34Bits :=
  fun nbits _ => ⟨decodeTableWord_of_lt nbits, fun h => ⟨decodeTableWord_of_le nbits h, boundaryWord_of_le h⟩⟩

end Sys2Proof.Proofs.RoundTrips

/-! Multiplication by the constants of the default mix matrices as bit equations (40_gf_arithmetic.md R85): 2, 4 and 8
are x, x^2 and x^3, so each is a number of multiplications by x, and 9 is x^3 + 1. -/

namespace Sys2Proof.Proofs.MixConstants

open Sys2Proof Sys2Proof.Machine
open Sys2Proof.Proofs.FieldArithmetic Sys2Proof.Proofs.CipherPipeline

theorem gfMul_two_left (n : Nibble) : gfMul 2#4 n = shiftReduce n :=
  calc gfMul 2#4 n = gfMul n (shiftReduce 1#4) := gfMul_comm _ _
    _ = shiftReduce n := by rw [gfMul_shiftReduce_right, gfMul_one_right]

theorem gfMul_four_left (n : Nibble) : gfMul 4#4 n = shiftReduce (shiftReduce n) :=
  calc gfMul 4#4 n = gfMul n (shiftReduce 2#4) := gfMul_comm _ _
    _ = shiftReduce (shiftReduce n) := by rw [gfMul_shiftReduce_right, gfMul_comm, gfMul_two_left]

theorem gfMul_eight_left (n : Nibble) : gfMul 8#4 n = shiftReduce (shiftReduce (shiftReduce n)) :=
  calc gfMul 8#4 n = gfMul n (shiftReduce 4#4) := gfMul_comm _ _
    _ = shiftReduce (shiftReduce (shiftReduce n)) := by rw [gfMul_shiftReduce_right, gfMul_comm, gfMul_four_left]

theorem gfMul_nine_left (n : Nibble) : gfMul 9#4 n = shiftReduce (shiftReduce (shiftReduce n)) ^^^ n :=
  calc gfMul 9#4 n = gfMul (8#4 ^^^ 1#4) n := rfl
    _ = shiftReduce (shiftReduce (shiftReduce n)) ^^^ n := by
      rw [gfMul_xor_left, gfMul_eight_left, gfMul_one_left]

/-- The nibble with these bits, the most significant first. -/
def ofBits (c3 c2 c1 c0 : Bool) : Nibble :=
  BitVec.ofBool c3 ++ BitVec.ofBool c2 ++ BitVec.ofBool c1 ++ BitVec.ofBool c0

theorem ofBits_getLsbD : ∀ n : Nibble,
    ofBits (n.getLsbD 3) (n.getLsbD 2) (n.getLsbD 1) (n.getLsbD 0) = n := by decide

/-- The bit shifted out is folded back into bits 0 and 1, the places of `POLY`'s low ones. -/
theorem shiftReduce_ofBits : ∀ b3 b2 b1 b0 : Bool,
    shiftReduce (ofBits b3 b2 b1 b0) = ofBits b2 b1 (b0 ^^ b3) b3 := by decide

theorem ofBits_xor : ∀ c3 c2 c1 c0 d3 d2 d1 d0 : Bool,
    ofBits c3 c2 c1 c0 ^^^ ofBits d3 d2 d1 d0 = ofBits (c3 ^^ d3) (c2 ^^ d2) (c1 ^^ d1) (c0 ^^ d0) := by decide

/-- R85 on a nibble given by its bits. -/
theorem gfMul_ofBits (b3 b2 b1 b0 : Bool) :
    gfMul 2#4 (ofBits b3 b2 b1 b0) = ofBits b2 b1 (b0 ^^ b3) b3 ∧
    gfMul 4#4 (ofBits b3 b2 b1 b0) = ofBits b1 (b0 ^^ b3) (b2 ^^ b3) b2 ∧
    gfMul 8#4 (ofBits b3 b2 b1 b0) = ofBits (b0 ^^ b3) (b2 ^^ b3) (b1 ^^ b2) b1 ∧
    gfMul 9#4 (ofBits b3 b2 b1 b0) = ofBits b0 b3 b2 (b0 ^^ b1) := by
  simp [gfMul_two_left, gfMul_four_left, gfMul_eight_left, gfMul_nine_left, shiftReduce_ofBits, ofBits_xor,
    Bool.xor_comm, Bool.xor_left_comm]

/-- Settles O20: every nibble is given by its bits. -/
theorem gfMulByMixConstants : Obligations.GfMulByMixConstants := by
  intro n
  have products := gfMul_ofBits (n.getLsbD 3) (n.getLsbD 2) (n.getLsbD 1) (n.getLsbD 0)
  rw [ofBits_getLsbD] at products
  exact products

end Sys2Proof.Proofs.MixConstants

/-! What is inverse to what beyond one order of composition: the tables (41_substitution.md R96), the column mix
(43_round_transforms.md R132) and encryption (44_cipher_pipeline.md R162); and the transforms that are linear over XOR
(43_round_transforms.md R137). -/

namespace Sys2Proof.Proofs.Inverses

open Sys2Proof Sys2Proof.Machine
open Sys2Proof.Proofs.FieldArithmetic Sys2Proof.Proofs.RoundTransforms Sys2Proof.Proofs.CipherPipeline

/-! ### A left inverse on a finite set -/

/-- The inference of R96: on a finite set a map with a left inverse is a bijection, and its left inverse is a bijection
that undoes it on the other side too. -/
theorem bijective_of_leftInverse {α : Type} [Fintype α] {f g : α → α} (h : Function.LeftInverse g f) :
    Function.Bijective f ∧ Function.Bijective g ∧ Function.RightInverse g f := by
  have right_inverse : Function.RightInverse g f := h.rightInverse_of_card_le le_rfl
  exact ⟨⟨h.injective, right_inverse.surjective⟩, ⟨right_inverse.injective, h.surjective⟩, right_inverse⟩

/-- Settles O22: the hypothesis on the tables is that the inverse one is a left inverse. -/
theorem tablesAreMutuallyInverseBijections : Obligations.TablesAreMutuallyInverseBijections :=
  fun _ h => bijective_of_leftInverse h

/-- Settles O32: by the round-trip law decryption is a left inverse. -/
theorem encryptIsBijective : Obligations.EncryptIsBijective := by
  intro cfg h k
  obtain ⟨bijective, -, right_inverse⟩ :=
    bijective_of_leftInverse (f := (encrypt cfg · k)) (g := (decrypt cfg · k)) (decrypt_encrypt h · k)
  exact ⟨bijective, right_inverse⟩

/-! ### The column mix -/

/-- The other order of `invMixCol_mixCol`, from the other product of the two matrices. -/
theorem mixCol_invMixCol {cfg : Config} (h : cfg.MixRightInverse) (s : Word) : mixCol cfg (invMixCol cfg s) = s := by
  have lane (c : Byte) : mixColByte cfg (invMixColByte cfg c) = c := by
    rw [mixColByte_eq_matCol, invMixColByte_eq_matCol, matCol_matCol, h, matCol_identityMatrix]
  rw [mixCol, invMixCol, upperByte_packBytes, lowerByte_packBytes, lane, lane, packBytes_bytes]

/-- Settles O29: one order from each of the two hypotheses. -/
theorem columnMixInverse : Obligations.ColumnMixInverse :=
  fun _ left right s => ⟨invMixCol_mixCol left s, mixCol_invMixCol right s⟩

/-! ### Linearity over XOR -/

theorem shiftRows_xor (s t : Word) : shiftRows (s ^^^ t) = shiftRows s ^^^ shiftRows t := by
  simp only [shiftRows_eq_append, BitVec.extractLsb'_xor, ← BitVec.xor_append]

/-- The multiplier distributes over XOR in its second factor, which is the column's nibble. -/
theorem matCol_xor (m : MixMatrix) (b c : Byte) : matCol m (b ^^^ c) = matCol m b ^^^ matCol m c := by
  simp only [matCol, hiNibble_xor, loNibble_xor, gfMul_xor_right, ← packByte_xor]
  ac_rfl

theorem mixCol_xor (cfg : Config) (s t : Word) : mixCol cfg (s ^^^ t) = mixCol cfg s ^^^ mixCol cfg t := by
  simp only [mixCol, mixColByte_eq_matCol, upperByte_xor, lowerByte_xor, matCol_xor, packBytes_xor]

theorem invMixCol_xor (cfg : Config) (s t : Word) :
    invMixCol cfg (s ^^^ t) = invMixCol cfg s ^^^ invMixCol cfg t := by
  simp only [invMixCol, invMixColByte_eq_matCol, upperByte_xor, lowerByte_xor, matCol_xor, packBytes_xor]

/-- Settles O30. -/
theorem mixingIsLinear : Obligations.MixingIsLinear :=
  fun cfg s t => ⟨shiftRows_xor s t, mixCol_xor cfg s t, invMixCol_xor cfg s t⟩

end Sys2Proof.Proofs.Inverses

/-! The four operations as one: each delivers a response that is a function of the tables and the operation alone, and
for a decoded request that function is the engine's (30_encoding.md R64, R69). -/

namespace Sys2Proof.Proofs.Operations

open Sys2Proof Sys2Proof.Machine
open Sys2Proof.Proofs.Encoding Sys2Proof.Proofs.FieldArithmetic Sys2Proof.Proofs.RoundTrips

/-- The response of an operation; `exec_eq_deliver` ties it to `exec`. -/
def respond (cfg : Config) : Instr → Response
  | .keyexp _ k => packResponse (keyExpansion cfg k).1 (keyExpansion cfg k).2
  | .enc x k => packResponse 0 (encrypt cfg x k)
  | .dec x k => packResponse 0 (decrypt cfg x k)
  | .gfmul _ a _ b => packResponse 0 (zextNibble (gfMul a b))

/-- Every operation delivers its response and does nothing else. -/
theorem exec_eq_deliver (i : Instr) (s : State) : exec i s = .next (deliver (respond s.config i) s) := by
  cases i <;> rfl

/-- Settles O16: what is appended is the operation's response. -/
theorem operationsOnlyAppendOneResponse : Obligations.OperationsOnlyAppendOneResponse := by
  intro i s t h
  rw [exec_eq_deliver] at h
  cases h
  exact ⟨rfl, rfl, rfl, respond s.config i, rfl⟩

/-- A response seen appended is the operation's own. -/
theorem eq_respond_of_exec {i : Instr} {s t : State} {r : Response} (h : exec i s = .next t)
    (hresp : t.responses = s.responses ++ [r]) : r = respond s.config i := by
  rw [exec_eq_deliver] at h
  cases h
  exact (List.singleton_inj.mp (List.append_cancel_left hresp)).symm

/-- Settles O17: of a state `respond` takes the tables only. -/
theorem responseDependsOnRequestAndTablesOnly : Obligations.ResponseDependsOnRequestAndTablesOnly := by
  intro i s t s' t' r r' same_tables hs ht hr hr'
  rw [eq_respond_of_exec hs hr, eq_respond_of_exec ht hr', same_tables]

/-! ### The engine function (R69) -/

/-- The response by operation is the response by request word. -/
theorem respond_decode (cfg : Config) (r : Request) : respond cfg (decode r) = engine cfg r := by
  rcases opcode_cases (reqOp r) with h | h | h | h
  · simp [decode_of_reqOp_keyexp h, respond, engine, h]
  · simp [decode_of_reqOp_enc h, respond, engine, h]
  · simp [decode_of_reqOp_dec h, respond, engine, h]
  · simp [decode_of_reqOp_gfmul h, respond, engine, h]

theorem exec_decode (r : Request) (s : State) : exec (decode r) s = .next (deliver (engine s.config r) s) := by
  rw [exec_eq_deliver, respond_decode]

theorem engine_packRequest_enc (cfg : Config) (x k : Word) :
    engine cfg (packRequest 0b01#2 x k) = packResponse 0 (encrypt cfg x k) := by
  rw [← respond_decode, decode_packRequest_enc, respond]

theorem engine_packRequest_dec (cfg : Config) (x k : Word) :
    engine cfg (packRequest 0b10#2 x k) = packResponse 0 (decrypt cfg x k) := by
  rw [← respond_decode, decode_packRequest_dec, respond]

theorem operandNibble_reqX (r : Request) : operandNibble (reqX r) = r.extractLsb' 16 4 := by
  grind [operandNibble, reqX]

theorem operandNibble_reqK (r : Request) : operandNibble (reqK r) = r.extractLsb' 0 4 := by
  grind [operandNibble, reqK]

/-- The engine function on the word's bit slices. -/
theorem engine_eq_slices (cfg : Config) (r : Request) :
    engine cfg r =
      if r.extractLsb' 32 2 = 0b00#2 then
        (keyExpansion cfg (r.extractLsb' 0 16)).1 ++ (keyExpansion cfg (r.extractLsb' 0 16)).2
      else if r.extractLsb' 32 2 = 0b01#2 then
        0#16 ++ encrypt cfg (r.extractLsb' 16 16) (r.extractLsb' 0 16)
      else if r.extractLsb' 32 2 = 0b10#2 then
        0#16 ++ decrypt cfg (r.extractLsb' 16 16) (r.extractLsb' 0 16)
      else
        0#28 ++ gfMul (r.extractLsb' 16 4) (r.extractLsb' 0 4) := by
  rw [engine, packResponse_zextNibble, operandNibble_reqX, operandNibble_reqK]
  rfl

end Sys2Proof.Proofs.Operations

/-! One step and one acceptance, an equation for each case, and what they say of the stage tables of ENC and DEC and of
reset (20_memory.md R54, 44_cipher_pipeline.md R154 and R155, 70_reset_and_hazards.md R195). -/

namespace Sys2Proof.Proofs.Stepping

open Sys2Proof Sys2Proof.Machine
open Sys2Proof.Proofs.Encoding Sys2Proof.Proofs.Operations

section
variable {s : State} {u u' : Transaction} {others : List Transaction} {r : Request} {rest : List Request}

theorem isIdle_iff : s.isIdle = true ↔ s.requests = [] ∧ s.inFlight = [] := by
  simp [State.isIdle]

/-! ### A step with a transaction in flight -/

theorem step_of_inFlight (hf : s.inFlight = u :: others) : step s = .next (continueTransaction u others s) := by
  simp only [step, hf]

theorem step_of_going (hf : s.inFlight = u :: others) (ha : advance s.config u = .going u') :
    step s = .next { s with inFlight := u' :: others } := by
  rw [step_of_inFlight hf, continueTransaction, ha]

theorem step_of_responds {rsp : Response} (hf : s.inFlight = u :: others) (ha : advance s.config u = .responds rsp) :
    step s = .next { s with inFlight := others, responses := s.responses ++ [rsp] } := by
  rw [step_of_inFlight hf, continueTransaction, ha]
  rfl

/-! ### A step with nothing in flight -/

theorem step_of_request (hf : s.inFlight = []) (hr : s.requests = r :: rest) :
    step s = exec (decode r) { s with requests := rest } := by
  simp only [step, hf, takeRequest, hr]

theorem step_of_request_engine (hf : s.inFlight = []) (hr : s.requests = r :: rest) :
    step s = .next { s with requests := rest, responses := s.responses ++ [engine s.config r] } := by
  rw [step_of_request hf hr, exec_decode]
  rfl

theorem step_of_isIdle (h : s.isIdle = true) : step s = .next s := by
  obtain ⟨hr, hf⟩ := isIdle_iff.mp h
  simp only [step, hf, takeRequest, hr]

/-! ### An acceptance -/

theorem acceptNext_of_requests (hr : s.requests = r :: rest) :
    acceptNext s =
      { s with requests := rest, inFlight := s.inFlight ++ [beginTransaction s.config (decode r)] } := by
  simp only [acceptNext, hr]

theorem acceptNext_config (s : State) : (acceptNext s).config = s.config := by
  rcases acceptNext_eq s with ⟨-, h⟩ | ⟨r, rest, -, h⟩ <;> rw [h]

theorem acceptNext_responses (s : State) : (acceptNext s).responses = s.responses := by
  rcases acceptNext_eq s with ⟨-, h⟩ | ⟨r, rest, -, h⟩ <;> rw [h]

end

/-! ### Performing a request -/

/-- Settles O6. -/
theorem stepPerformsOldestRequest : Obligations.StepPerformsOldestRequest :=
  fun _ _ _ hf hr => step_of_request hf hr

/-- Settles O7: a word the boundary admits becomes the oldest request of a state with nothing in flight. -/
theorem placedWordIsPerformedNext : Obligations.PlacedWordIsPerformedNext := by
  intro s nbits w hw
  have placed : s.withFetchWord nbits w = placeRequest (BitVec.ofNat 34 w) s := by
    rw [State.withFetchWord, boundaryWord_of_lt hw]
  rw [placed, step_of_request (placeRequest_inFlight _ s) (placeRequest_requests _ s)]
  rfl

/-- Settles O8. -/
theorem idleEngineStaysAsItIs : Obligations.IdleEngineStaysAsItIs :=
  fun _ h => step_of_isIdle h

/-- Settles O10: the step delivers the engine's response, which is read off the word's bit slices. -/
theorem stepIsTheEngineFunction : Obligations.StepIsTheEngineFunction := by
  intro s r rest hf hr
  rw [step_of_request_engine hf hr, engine_eq_slices]

/-! ### The stage tables -/

/-- Settles O34: the rows are the equations of `encAction`, which a step applies to the oldest transaction. -/
theorem encStageTable : Obligations.EncStageTable := by
  intro s ks b x k rest others
  refine ⟨fun hr => ?accepted, step_of_going rfl rfl, step_of_going rfl rfl, step_of_going rfl rfl,
    step_of_responds rfl rfl⟩
  rw [acceptNext_of_requests hr, ← packRequest, decode_packRequest_enc, beginTransaction]

/-- Settles O35: the rows are the equations of `decAction`, which a step applies to the oldest transaction. -/
theorem decStageTable : Obligations.DecStageTable := by
  intro s ks b x k rest others
  refine ⟨fun hr => ?accepted, step_of_going rfl rfl, step_of_going rfl rfl, step_of_going rfl rfl,
    step_of_going rfl rfl, step_of_responds rfl rfl⟩
  rw [acceptNext_of_requests hr, ← packRequest, decode_packRequest_dec, beginTransaction]

/-! ### Reset -/

/-- Settles O44: after a reset nothing is in flight, so the one request that waits is performed. -/
theorem resetLeavesEngineIdle : Obligations.ResetLeavesEngineIdle :=
  ⟨rfl, rfl, fun _ => step_of_request_engine rfl rfl, fun _ _ => ⟨rfl, rfl, step_of_request_engine rfl rfl⟩⟩

/-- Settles O45: of the three parts of the promised list a reset empties the middle one. -/
theorem waitingRequestsOutliveReset : Obligations.WaitingRequestsOutliveReset := by
  intro s
  rw [State.promised, applyReset_inFlight, List.map_nil, List.append_nil]
  rfl

end Sys2Proof.Proofs.Stepping

/-! The stage machine: what one action keeps of a transaction in flight, and from it the four things a step can do.
Every statement about what steps keep is derived from `StepTo` (44_cipher_pipeline.md R154 to R156). -/

namespace Sys2Proof.Proofs.StageMachine

open Sys2Proof Sys2Proof.Machine
open Sys2Proof.Proofs.Operations Sys2Proof.Proofs.Stepping

/-! ### A transaction newly accepted -/

section
variable (cfg : Config) (i : Instr)

theorem owedResponse_beginTransaction : owedResponse cfg (beginTransaction cfg i) = respond cfg i := by
  cases i <;> rfl

theorem coherent_beginTransaction : (beginTransaction cfg i).Coherent cfg := by
  cases i with
  | keyexp x k => exact rfl
  | enc x k => exact rfl
  | dec x k => exact rfl
  | gfmul u a v b => trivial

theorem stepsLeft_beginTransaction :
    stepsLeft (beginTransaction cfg i) =
      match i with
      | .keyexp _ _ => 1
      | .enc _ _ => 4
      | .dec _ _ => 5
      | .gfmul _ _ _ _ => 5 := by
  cases i <;> rfl

end

/-! ### One action on a transaction in flight -/

/-- `u'` is `u` one action on: it owes the same response, after one step fewer, and is coherent if `u` was. -/
structure GoesOnAs (cfg : Config) (u u' : Transaction) : Prop where
  owed : owedResponse cfg u' = owedResponse cfg u
  left : stepsLeft u = stepsLeft u' + 1
  coherent : u.Coherent cfg → u'.Coherent cfg

/-- The iteration count does not wrap before the last iteration. -/
theorem toNat_add_one_of_ne_three :
    ∀ i : BitVec 2, i ≠ 3 → (i + 1).toNat = i.toNat + 1 ∧ i.toNat < 3 := by decide

/-- An iteration done now is one that the remaining loop need not do. -/
theorem goesOnAs_iterateMul (cfg : Config) {m : Multiplier} (h : m.i ≠ 3) :
    GoesOnAs cfg (.gfmul m) (.gfmul (iterateMul m)) := by
  obtain ⟨count_eq, count_lt⟩ := toNat_add_one_of_ne_three m.i h
  rw [← iterateMul_i] at count_eq
  have one_fewer : gfIter - m.i.toNat = gfIter - (m.i.toNat + 1) + 1 := by rw [gfIter]; omega
  refine ⟨?owed, ?left, fun _ => trivial⟩
  case owed => simp only [owedResponse, count_eq, one_fewer, runMul_succ]
  case left => simp only [stepsLeft, count_eq]; omega

/-- The last iteration leaves the product in the accumulator. -/
theorem goesOnAs_gfmulDone (cfg : Config) {m : Multiplier} (h : m.i = 3) :
    GoesOnAs cfg (.gfmul m) (.gfmulDone (iterateMul m).acc) := by
  refine ⟨?owed, ?left, fun _ => trivial⟩
  case owed => rw [owedResponse, owedResponse, h]; rfl
  case left => rw [stepsLeft, stepsLeft, h]; rfl

theorem mulAction_goesOn (cfg : Config) (m : Multiplier) :
    ∃ u', mulAction m = .going u' ∧ GoesOnAs cfg (.gfmul m) u' := by
  by_cases h : m.i = 3
  · exact ⟨_, if_pos h, goesOnAs_gfmulDone cfg h⟩
  · exact ⟨_, if_neg h, goesOnAs_iterateMul cfg h⟩

/-- What one action can do: the transaction goes on as it was, or it was at its last step and responds what it owed. -/
theorem advance_cases (cfg : Config) (u : Transaction) :
    (∃ u', advance cfg u = .going u' ∧ GoesOnAs cfg u u') ∨
    (advance cfg u = .responds (owedResponse cfg u) ∧ stepsLeft u = 1) := by
  cases u with
  | keyexp ks => exact .inr ⟨rfl, rfl⟩
  | enc stage ks b =>
    cases stage with
    | eInitial => exact .inl ⟨_, rfl, rfl, rfl, id⟩
    | eRound1 => exact .inl ⟨_, rfl, rfl, rfl, id⟩
    | eRound2 => exact .inl ⟨_, rfl, rfl, rfl, id⟩
    | eDone => exact .inr ⟨rfl, rfl⟩
  | dec stage ks b =>
    cases stage with
    | dInitial => exact .inl ⟨_, rfl, rfl, rfl, id⟩
    | dInvRound2 => exact .inl ⟨_, rfl, rfl, rfl, id⟩
    | dInvRound1 => exact .inl ⟨_, rfl, rfl, rfl, id⟩
    | dFinal => exact .inl ⟨_, rfl, rfl, rfl, id⟩
    | dDone => exact .inr ⟨rfl, rfl⟩
  | gfmul m => exact .inl (mulAction_goesOn cfg m)
  | gfmulDone acc => exact .inr ⟨rfl, rfl⟩

/-- The tables do not matter here, so those of the default configuration serve. -/
theorem stepsLeft_pos (u : Transaction) : 0 < stepsLeft u := by
  rcases advance_cases defaultConfig u with ⟨u', -, keeps⟩ | ⟨-, last⟩
  · rw [keeps.left]; exact Nat.succ_pos _
  · rw [last]; exact Nat.one_pos

/-! ### One step -/

/-- The states a step of `s` can answer; `exists_stepTo` ties it to `step`. -/
inductive StepTo (s : State) : State → Prop where
  /-- The oldest transaction in flight goes on in its place. -/
  | goesOn {u u' : Transaction} {others : List Transaction} (inFlight : s.inFlight = u :: others)
      (keeps : GoesOnAs s.config u u') : StepTo s { s with inFlight := u' :: others }
  /-- The oldest transaction in flight delivers the response it owed. -/
  | responds {u : Transaction} {others : List Transaction} (inFlight : s.inFlight = u :: others)
      (last : stepsLeft u = 1) :
      StepTo s { s with inFlight := others, responses := s.responses ++ [owedResponse s.config u] }
  /-- The oldest request is performed whole. -/
  | performs {r : Request} {rest : List Request} (inFlight : s.inFlight = []) (requests : s.requests = r :: rest) :
      StepTo s { s with requests := rest, responses := s.responses ++ [engine s.config r] }
  /-- There is nothing to do. -/
  | idles (idle : s.isIdle = true) : StepTo s s

theorem exists_stepTo (s : State) : ∃ t, step s = .next t ∧ StepTo s t := by
  cases hf : s.inFlight with
  | cons u others =>
    rcases advance_cases s.config u with ⟨u', ha, keeps⟩ | ⟨ha, last⟩
    · exact ⟨_, step_of_going hf ha, .goesOn hf keeps⟩
    · exact ⟨_, step_of_responds hf ha, .responds hf last⟩
  | nil =>
    cases hr : s.requests with
    | cons r rest => exact ⟨_, step_of_request_engine hf hr, .performs hf hr⟩
    | nil =>
      have idle := isIdle_iff.mpr ⟨hr, hf⟩
      exact ⟨s, step_of_isIdle idle, .idles idle⟩

theorem stepTo_of_step {s t : State} (h : step s = .next t) : StepTo s t := by
  obtain ⟨t', h', hto⟩ := exists_stepTo s
  rw [h] at h'
  cases h'
  exact hto

end Sys2Proof.Proofs.StageMachine

/-! What every step and every acceptance keeps: the tables, the list of responses delivered and owed, the invariant, and
the number of responses owed (10_state.md R24, 20_memory.md R54, 44_cipher_pipeline.md R156). -/

namespace Sys2Proof.Proofs.Invariants

open Sys2Proof Sys2Proof.Machine
open Sys2Proof.Proofs.Operations Sys2Proof.Proofs.Stepping Sys2Proof.Proofs.StageMachine

section
variable {s t : State}

/-! ### The tables -/

theorem config_eq_of_stepTo (h : StepTo s t) : t.config = s.config := by
  cases h <;> rfl

/-- Settles O41. -/
theorem tablesNeverChange : Obligations.TablesNeverChange :=
  fun s r => ⟨acceptNext_config s, issue_config r s, applyReset_config s,
    fun _ h => config_eq_of_stepTo (stepTo_of_step h)⟩

/-! ### The responses delivered and owed -/

/-- A response moves from the transactions or the requests to the end of those delivered, which is its place in the
list already. -/
theorem promised_eq_of_stepTo (h : StepTo s t) : t.promised = s.promised := by
  cases h with
  | goesOn inFlight keeps => simp [State.promised, inFlight, keeps.owed]
  | responds inFlight last => simp [State.promised, inFlight]
  | performs inFlight requests => simp [State.promised, inFlight, requests]
  | idles => rfl

/-- The oldest request's response moves to the end of those the transactions owe. -/
theorem acceptNext_promised (s : State) : (acceptNext s).promised = s.promised := by
  rcases acceptNext_eq s with ⟨-, h⟩ | ⟨r, rest, hr, h⟩
  · rw [h]
  · simp [h, State.promised, hr, owedResponse_beginTransaction, respond_decode]

/-- Settles O38: a case of `StepTo` at a time. -/
theorem promisedResponsesAreKept : Obligations.PromisedResponsesAreKept :=
  fun s => ⟨acceptNext_promised s, fun _ h => promised_eq_of_stepTo (stepTo_of_step h)⟩

/-! ### The invariant -/

theorem inv_of_stepTo (h : StepTo s t) (hinv : s.Inv) : t.Inv := by
  obtain ⟨wellFormed, coherent⟩ := hinv
  cases h with
  | goesOn inFlight keeps =>
    rw [inFlight] at coherent
    obtain ⟨oldest, younger⟩ := List.forall_mem_cons.mp coherent
    exact ⟨wellFormed, List.forall_mem_cons.mpr ⟨keeps.coherent oldest, younger⟩⟩
  | responds inFlight last =>
    rw [inFlight] at coherent
    obtain ⟨-, younger⟩ := List.forall_mem_cons.mp coherent
    exact ⟨wellFormed, younger⟩
  | performs => exact ⟨wellFormed, coherent⟩
  | idles => exact ⟨wellFormed, coherent⟩

theorem acceptNext_inv (hinv : s.Inv) : (acceptNext s).Inv := by
  rcases acceptNext_eq s with ⟨-, h⟩ | ⟨r, rest, -, h⟩
  · rwa [h]
  · obtain ⟨wellFormed, coherent⟩ := hinv
    have accepted_coherent := coherent_beginTransaction s.config (decode r)
    rw [h]
    exact ⟨wellFormed, List.forall_mem_append.mpr ⟨coherent, List.forall_mem_singleton.mpr accepted_coherent⟩⟩

/-- Settles O42: an acceptance starts a coherent transaction, and an action keeps one coherent. -/
theorem stepKeepsInvariant : Obligations.StepKeepsInvariant :=
  fun _ hinv => ⟨acceptNext_inv hinv, fun _ h => inv_of_stepTo (stepTo_of_step h) hinv⟩

/-- Settles O43: the default tables are checked entry by entry. -/
theorem resetMeetsInvariant : Obligations.ResetMeetsInvariant :=
  ⟨by decide, List.forall_mem_nil _⟩

/-! ### The number of responses -/

theorem outstanding_add_responses_of_stepTo (h : StepTo s t) :
    t.outstanding + t.responses.length = s.outstanding + s.responses.length := by
  cases h with
  | goesOn inFlight keeps => simp [State.outstanding, inFlight]
  | responds inFlight last => simp [State.outstanding, inFlight]; omega
  | performs inFlight requests => simp [State.outstanding, inFlight, requests]; omega
  | idles => rfl

theorem responses_kept_of_stepTo (h : StepTo s t) : s.responses <+: t.responses := by
  cases h with
  | goesOn => exact ⟨[], List.append_nil _⟩
  | responds => exact ⟨_, rfl⟩
  | performs => exact ⟨_, rfl⟩
  | idles => exact ⟨[], List.append_nil _⟩

theorem acceptNext_outstanding (s : State) : (acceptNext s).outstanding = s.outstanding := by
  rcases acceptNext_eq s with ⟨-, h⟩ | ⟨r, rest, hr, h⟩
  · rw [h]
  · simp [h, State.outstanding, hr]; omega

/-- Settles O39: a step that adds a response takes the request or the transaction it answers. -/
theorem oneResponsePerRequest : Obligations.OneResponsePerRequest :=
  fun s => ⟨acceptNext_outstanding s, acceptNext_responses s, fun _ h =>
    ⟨outstanding_add_responses_of_stepTo (stepTo_of_step h), responses_kept_of_stepTo (stepTo_of_step h)⟩⟩

end

end Sys2Proof.Proofs.Invariants

/-! Runs: a request performed stage by stage, several performed in their order, and every run's end (20_memory.md R54,
44_cipher_pipeline.md R156 to R160, 70_reset_and_hazards.md R201, R202). -/

namespace Sys2Proof.Proofs.Runs

open Sys2Proof Sys2Proof.Machine
open Sys2Proof.Proofs.CipherPipeline Sys2Proof.Proofs.Operations Sys2Proof.Proofs.Stepping
open Sys2Proof.Proofs.StageMachine Sys2Proof.Proofs.Invariants

/-! ### Stage by stage -/

/-- The oldest transaction in flight, run to its end: it is gone, and the response it owed is delivered. -/
theorem runSteps_stepsLeft {s : State} {u : Transaction} {others : List Transaction} (hf : s.inFlight = u :: others) :
    runSteps (stepsLeft u) s =
      .next { s with inFlight := others, responses := s.responses ++ [owedResponse s.config u] } := by
  induction hn : stepsLeft u generalizing s u with
  | zero => exact absurd hn (stepsLeft_pos u).ne'
  | succ n ih =>
    rcases advance_cases s.config u with ⟨u', ha, keeps⟩ | ⟨ha, last⟩
    · have left' : stepsLeft u' = n := Nat.succ.inj (keeps.left.symm.trans hn)
      rw [runSteps_succ (step_of_going hf ha), ih rfl left', keeps.owed]
    · obtain rfl : n = 0 := Nat.succ.inj (hn.symm.trans last)
      rw [runSteps_succ (step_of_responds hf ha), runSteps_zero]

/-- Settles O36: the transaction accepted owes what the atomic step delivers, and takes as many steps as stated. -/
theorem stageMachineEndsAsTheAtomicStep : Obligations.StageMachineEndsAsTheAtomicStep := by
  intro s r rest hf hr
  have accepted : acceptNext s = { s with
      requests := rest, inFlight := [beginTransaction s.config (decode r)] } := by
    rw [acceptNext_of_requests hr, hf, List.nil_append]
  have run := runSteps_stepsLeft (congrArg State.inFlight accepted)
  rw [stepsLeft_beginTransaction, acceptNext_config, owedResponse_beginTransaction, respond_decode] at run
  rw [step_of_request_engine hf hr, hf]
  rw [accepted] at run ⊢
  exact run

/-! ### Several requests -/

/-- Settles O37, by induction on the number of steps. -/
theorem responsesInRequestOrder : Obligations.ResponsesInRequestOrder := by
  intro n
  induction n with
  | zero => intro s _ _; simp [runSteps_zero]
  | succ n ih =>
    intro s hf hn
    cases hr : s.requests with
    | nil => simp [hr] at hn
    | cons r rest =>
      have enough : n ≤ rest.length := by simpa [hr] using hn
      have rest_run := ih { s with requests := rest, responses := s.responses ++ [engine s.config r] } hf enough
      rw [runSteps_succ (step_of_request_engine hf hr), rest_run]
      simp

/-- Settles O33: the two requests run in order, and the second's block is the first's encryption. -/
theorem encThenDecRespondsPlaintext : Obligations.EncThenDecRespondsPlaintext := by
  intro s p k wellFormed hf hr
  refine ⟨encrypt s.config p k, ?_⟩
  have run := responsesInRequestOrder 2
    ((s.issue (packRequest 0b01#2 p k)).issue (packRequest 0b10#2 (encrypt s.config p k) k)) hf (by simp)
  refine run.trans ?_
  simp [hr, engine_packRequest_enc, engine_packRequest_dec, decrypt_encrypt wellFormed, packResponse]

/-! ### To the end -/

theorem stepsToQuiet_eq_of_stepTo {s t : State} (h : StepTo s t) (busy : s.stepsToQuiet ≠ 0) :
    s.stepsToQuiet = t.stepsToQuiet + 1 := by
  cases h with
  | goesOn inFlight keeps => simp [State.stepsToQuiet, inFlight, keeps.left]; omega
  | responds inFlight last => simp [State.stepsToQuiet, inFlight, last]; omega
  | performs inFlight requests => simp [State.stepsToQuiet, inFlight, requests]
  | idles idle =>
    obtain ⟨hr, hf⟩ := isIdle_iff.mp idle
    simp [State.stepsToQuiet, hr, hf] at busy

/-- Every transaction in flight takes a step, so a state without steps left has none. -/
theorem isIdle_of_stepsToQuiet_eq_zero {s : State} (h : s.stepsToQuiet = 0) : s.isIdle = true := by
  obtain ⟨no_steps, no_requests⟩ := Nat.add_eq_zero_iff.mp h
  refine isIdle_iff.mpr ⟨List.eq_nil_of_length_eq_zero no_requests, List.eq_nil_iff_forall_not_mem.mpr ?_⟩
  intro u hu
  have left_zero : stepsLeft u = 0 := List.sum_eq_zero_iff.mp no_steps _ (List.mem_map_of_mem hu)
  exact (stepsLeft_pos u).ne' left_zero

theorem promised_of_isIdle {s : State} (h : s.isIdle = true) : s.promised = s.responses := by
  obtain ⟨hr, hf⟩ := isIdle_iff.mp h
  simp [State.promised, hr, hf]

/-- Settles O40, by induction on the steps left: each takes one off and keeps what is promised and the tables. -/
theorem everyRequestIsAnswered : Obligations.EveryRequestIsAnswered := by
  intro s
  induction hn : s.stepsToQuiet generalizing s with
  | zero =>
    have idle := isIdle_of_stepsToQuiet_eq_zero hn
    exact ⟨s, runSteps_zero s, idle, (promised_of_isIdle idle).symm, rfl⟩
  | succ n ih =>
    obtain ⟨u, hstep, hto⟩ := exists_stepTo s
    have one_fewer : s.stepsToQuiet = u.stepsToQuiet + 1 := stepsToQuiet_eq_of_stepTo hto (by omega)
    obtain ⟨t, hrun, idle, answered, tables⟩ := ih u (by omega)
    exact ⟨t, (runSteps_succ hstep n).trans hrun, idle, answered.trans (promised_eq_of_stepTo hto),
      tables.trans (config_eq_of_stepTo hto)⟩

end Sys2Proof.Proofs.Runs

/-! Host programs: the request a line denotes, one line on an idle engine, and whole programs (30_encoding.md R68,
70_reset_and_hazards.md R199, R202). -/

namespace Sys2Proof.Proofs.HostPrograms

open Sys2Proof Sys2Proof.Machine
open Sys2Proof.Proofs.Encoding Sys2Proof.Proofs.CipherPipeline Sys2Proof.Proofs.Operations
open Sys2Proof.Proofs.Stepping

/-! ### The request of a line -/

/-- Where a line of two operands denotes a request, it is built from two values. -/
theorem eq_of_bind_map_eq_some {a b : Option Word} {g : Word → Word → Request} {r : Request}
    (h : (a.bind fun x => b.map (g x)) = some r) : ∃ x y, r = g x y := by
  obtain ⟨x, -, hb⟩ := Option.bind_eq_some_iff.mp h
  obtain ⟨y, -, hr⟩ := Option.map_eq_some_iff.mp hb
  exact ⟨x, y, hr.symm⟩

/-- Where both operands have values, a line of two operands denotes a request. -/
theorem exists_bind_map_eq_some {a b : Option Word} (g : Word → Word → Request) (ha : ∃ x, a = some x)
    (hb : ∃ y, b = some y) : ∃ r, (a.bind fun x => b.map (g x)) = some r := by
  obtain ⟨x, rfl⟩ := ha
  obtain ⟨y, rfl⟩ := hb
  exact ⟨g x y, rfl⟩

theorem operandRest_nibbleField (v : Word) : operandRest (nibbleField v) = 0 := by
  grind [operandRest, nibbleField, zextNibble]

/-- Settles O46: the request is packed from the line's operation code and values that leave the ignored bits zero. -/
theorem linesLeaveUnusedBitsZero : Obligations.LinesLeaveUnusedBitsZero := by
  intro l env r h
  cases l with
  | keyexp dst k =>
    obtain ⟨kv, -, rfl⟩ := Option.map_eq_some_iff.mp h
    rw [decode_packRequest_keyexp]
    exact ⟨rfl, rfl⟩
  | enc dst x k =>
    obtain ⟨xv, kv, rfl⟩ := eq_of_bind_map_eq_some h
    rw [decode_packRequest_enc]
    exact ⟨rfl, rfl⟩
  | dec dst x k =>
    obtain ⟨xv, kv, rfl⟩ := eq_of_bind_map_eq_some h
    rw [decode_packRequest_dec]
    exact ⟨rfl, rfl⟩
  | gfmul dst a b =>
    obtain ⟨av, bv, rfl⟩ := eq_of_bind_map_eq_some h
    rw [decode_packRequest_gfmul, operandRest_nibbleField, operandRest_nibbleField]
    exact ⟨rfl, rfl⟩

/-! ### One line on an idle engine -/

theorem isIdle_deliver (r : Response) (s : State) : (deliver r s).isIdle = s.isIdle := rfl

/-- The engine performs the request the host issues and is as before, with one response more. -/
theorem step_issue_of_isIdle {s : State} (idle : s.isIdle = true) (r : Request) :
    step (s.issue r) = .next (deliver (engine s.config r) s) := by
  obtain ⟨hr, hf⟩ := isIdle_iff.mp idle
  have waits_alone : (s.issue r).requests = [r] := by rw [issue_requests, hr, List.nil_append]
  rw [step_of_request_engine (s := s.issue r) hf waits_alone, deliver, hr]
  rfl

/-- A line that denotes a request binds its names to the engine's response to it. -/
theorem runLine_of_isIdle {l : HostLine} {env : Bindings} {s : State} {r : Request} (idle : s.isIdle = true)
    (hl : lineRequest env l = some r) :
    runLine l env s = some (bindResponse env (engine s.config r) l, deliver (engine s.config r) s) := by
  simp [runLine, idle, hl, step_issue_of_isIdle idle]

theorem runProgram_cons {l : HostLine} {rest : List HostLine} {env env' : Bindings} {s t : State}
    (h : runLine l env s = some (env', t)) : runProgram (l :: rest) env s = runProgram rest env' t := by
  rw [runProgram, h]
  rfl

/-- Settles O48: the second line's name stands for the ciphertext that the first bound. -/
theorem boundCiphertextDecryptsToPlaintext : Obligations.BoundCiphertextDecryptsToPlaintext := by
  intro c p x k env s idle wellFormed
  have enc_runs := runLine_of_isIdle (l := .enc (some c) (.numeral x) (.numeral k)) (env := env) idle rfl
  rw [engine_packRequest_enc, bindResponse, rspLo_packResponse] at enc_runs
  have dec_request : lineRequest ((c, encrypt s.config x k) :: env) (.dec (some p) (.name c) (.numeral k)) =
      some (packRequest 0b10#2 (encrypt s.config x k) k) := by
    simp [lineRequest, operandValue]
  have dec_runs := runLine_of_isIdle (s := deliver (packResponse 0 (encrypt s.config x k)) s) idle dec_request
  rw [engine_packRequest_dec, deliver_config, decrypt_encrypt wellFormed, bindResponse, rspLo_packResponse] at dec_runs
  exact ⟨_, _, (runProgram_cons enc_runs).trans (runProgram_cons dec_runs), List.lookup_cons_self⟩

/-! ### Well-formed lines denote requests -/

theorem exists_operandValue {width : Nat} {env : Bindings} {o : HostOperand}
    (h : operandWellFormed width (env.map Prod.fst) o = true) : ∃ v, operandValue env o = some v := by
  cases o with
  | numeral v => exact ⟨v, rfl⟩
  | name n =>
    obtain ⟨p, hp, rfl⟩ := List.mem_map.mp (List.contains_iff_mem.mp h)
    exact Option.isSome_iff_exists.mp (List.lookup_isSome_iff.mpr ⟨p, hp, beq_self_eq_true _⟩)

theorem exists_lineRequest {env : Bindings} {l : HostLine} (h : lineWellFormed (env.map Prod.fst) l = true) :
    ∃ r, lineRequest env l = some r := by
  cases l with
  | keyexp dst k =>
    obtain ⟨v, hv⟩ := exists_operandValue h
    exact ⟨packRequest 0b00#2 0 v, by rw [lineRequest, hv, Option.map_some]⟩
  | enc dst x k =>
    obtain ⟨hx, hk⟩ := Bool.and_eq_true_iff.mp h
    exact exists_bind_map_eq_some _ (exists_operandValue hx) (exists_operandValue hk)
  | dec dst x k =>
    obtain ⟨hx, hk⟩ := Bool.and_eq_true_iff.mp h
    exact exists_bind_map_eq_some _ (exists_operandValue hx) (exists_operandValue hk)
  | gfmul dst a b =>
    obtain ⟨ha, hb⟩ := Bool.and_eq_true_iff.mp h
    exact exists_bind_map_eq_some _ (exists_operandValue ha) (exists_operandValue hb)

/-! ### More names bound keep a program well formed -/

section
variable {bound bound' : List Nat}

theorem operandWellFormed_mono (more : bound ⊆ bound') {width : Nat} {o : HostOperand}
    (h : operandWellFormed width bound o = true) : operandWellFormed width bound' o = true := by
  cases o with
  | numeral v => exact h
  | name n => exact List.contains_iff_mem.mpr (more (List.contains_iff_mem.mp h))

theorem operandsWellFormed_mono (more : bound ⊆ bound') {width : Nat} {o o' : HostOperand}
    (h : (operandWellFormed width bound o && operandWellFormed width bound o') = true) :
    (operandWellFormed width bound' o && operandWellFormed width bound' o') = true := by
  obtain ⟨first, second⟩ := Bool.and_eq_true_iff.mp h
  exact Bool.and_eq_true_iff.mpr ⟨operandWellFormed_mono more first, operandWellFormed_mono more second⟩

theorem lineWellFormed_mono (more : bound ⊆ bound') {l : HostLine} (h : lineWellFormed bound l = true) :
    lineWellFormed bound' l = true := by
  cases l with
  | keyexp dst k => exact operandWellFormed_mono more h
  | enc dst x k => exact operandsWellFormed_mono more h
  | dec dst x k => exact operandsWellFormed_mono more h
  | gfmul dst a b => exact operandsWellFormed_mono more h

theorem programWellFormed_mono (more : bound ⊆ bound') {p : List HostLine} (h : programWellFormed bound p = true) :
    programWellFormed bound' p = true := by
  induction p generalizing bound bound' with
  | nil => rfl
  | cons l rest ih =>
    obtain ⟨hl, hrest⟩ := Bool.and_eq_true_iff.mp h
    have more_after : bound ++ lineBinds l ⊆ bound' ++ lineBinds l := List.append_subset.mpr
      ⟨List.subset_append_of_subset_left _ more, List.subset_append_right _ _⟩
    exact Bool.and_eq_true_iff.mpr ⟨lineWellFormed_mono more hl, ih more_after hrest⟩

end

/-! ### Whole programs -/

/-- The names bound after a line are its own, newest first, and those bound before. -/
theorem bindResponse_names (env : Bindings) (r : Response) (l : HostLine) :
    (bindResponse env r l).map Prod.fst = (lineBinds l).reverse ++ env.map Prod.fst := by
  cases l with
  | keyexp dst => cases dst <;> rfl
  | enc dst => cases dst <;> rfl
  | dec dst => cases dst <;> rfl
  | gfmul dst => cases dst <;> rfl

theorem subset_bindResponse_names (env : Bindings) (r : Response) (l : HostLine) :
    env.map Prod.fst ++ lineBinds l ⊆ (bindResponse env r l).map Prod.fst := by
  rw [bindResponse_names]
  exact List.append_subset.mpr ⟨List.subset_append_right _ _,
    List.subset_append_of_subset_left _ (List.reverse_perm _).symm.subset⟩

/-- Settles O47, by induction on the program: a line runs, and the rest is well formed under the names bound then. -/
theorem wellFormedProgramsRunToTheEnd : Obligations.WellFormedProgramsRunToTheEnd := by
  intro p
  induction p with
  | nil => exact fun env s idle _ => ⟨env, s, rfl, idle, rfl, rfl⟩
  | cons l rest ih =>
    intro env s idle wellFormed
    obtain ⟨hl, hrest⟩ := Bool.and_eq_true_iff.mp wellFormed
    obtain ⟨r, hr⟩ := exists_lineRequest hl
    have rest_wellFormed := programWellFormed_mono (subset_bindResponse_names env (engine s.config r) l) hrest
    have idle_after := (isIdle_deliver (engine s.config r) s).trans idle
    obtain ⟨env', t, hrun, hidle, hconfig, hlength⟩ := ih _ _ idle_after rest_wellFormed
    refine ⟨env', t, (runProgram_cons (runLine_of_isIdle idle hr)).trans hrun, hidle, hconfig, ?_⟩
    simp only [hlength, deliver_responses, List.length_append, List.length_cons, List.length_nil]
    omega

end Sys2Proof.Proofs.HostPrograms
